-- ==== Sys2Proof/Word.lean ====
section
/-! DEFINITION. The word types of the machine (10_state R21, R25, R28; 30_encoding R70, R71). -/

namespace Sys2Proof

/-- A memory cell or a general register (10_state R21, 20_memory R50). -/
abbrev Byte := BitVec 8

/-- An opcode, or a value of PC or of a stack entry (10_state R25, R29; 30_encoding R70). -/
abbrev Word := BitVec 16

/-- A 12-bit address: the index register I and the field nnn (10_state R28, 30_encoding R71). -/
abbrev Addr := BitVec 12

/-- A 4-bit field of an opcode: a register index x or y, or the row count n; also a key index
(30_encoding R71, 10_state R38). -/
abbrev Nibble := BitVec 4

end Sys2Proof
end

