-- ==== Sys2Proof/Machine/Flags.lean ====
section
/-! DEFINITION. The computations of VF (10_state R31) and of the results beside it (42_alu R142). -/

namespace Sys2Proof.Machine

/-- A flag value in a register: 1 or 0 (10_state R31). -/
def flagByte (c : Bool) : Byte := if c then 1 else 0

/-- The sum modulo 256 (42_alu R142). -/
def sumByte (a b : Byte) : Byte := BitVec.ofNat 8 ((a.toNat + b.toNat) % 256)

/-- The carry of 8xy4: the exact sum exceeds 255 (42_alu R136). -/
def carryOf (a b : Byte) : Bool := decide (a.toNat + b.toNat > 255)

/-- The difference modulo 256 (42_alu R142). -/
def diffByte (a b : Byte) : Byte := BitVec.ofNat 8 ((a.toNat + 256 - b.toNat) % 256)

/-- No borrow: the minuend is at least the subtrahend (42_alu R137, R139). -/
def noBorrowOf (a b : Byte) : Bool := decide (a.toNat ≥ b.toNat)

/-- The bit 8xy6 shifts out, a AND 1 (42_alu R138). -/
def lowBit (a : Byte) : Byte := a &&& 1

/-- a >> 1 (42_alu R138). -/
def shiftRight (a : Byte) : Byte := a >>> 1

/-- The bit 8xyE shifts out, (a >> 7) AND 1 (42_alu R140). -/
def highBit (a : Byte) : Byte := (a >>> 7) &&& 1

/-- (a << 1) mod 256 (42_alu R140). -/
def shiftLeft (a : Byte) : Byte := a <<< 1

end Sys2Proof.Machine
end

