-- ==== Sys2Proof/Syntax.lean ====
section
/-! DEFINITION. The 34 instructions, one constructor per row of spec/opcode_table.json, in the table's order (30_encoding R75). -/

namespace Sys2Proof

/-- One constructor per row of the opcode map (30_encoding R75).  `x` and `y` are the register
fields op[11:8] and op[7:4], `kk` is op[7:0], `nnn` is op[11:0] and `n` is op[3:0] (R71). -/
inductive Instr where
  /-- 00E0, clear display (44_display R174). -/
  | cls
  /-- 00EE, return from subroutine (41_control R110). -/
  | ret
  /-- 1nnn, jump (41_control R111). -/
  | jp (nnn : Addr)
  /-- 2nnn, call subroutine (41_control R112). -/
  | call (nnn : Addr)
  /-- 3xkk, skip if equal to immediate (41_control R114). -/
  | seImm (x : Nibble) (kk : Byte)
  /-- 4xkk, skip if not equal to immediate (41_control R115). -/
  | sneImm (x : Nibble) (kk : Byte)
  /-- 5xy0, skip if registers equal (41_control R116). -/
  | seReg (x y : Nibble)
  /-- 6xkk, load immediate (42_alu R130). -/
  | ldImm (x : Nibble) (kk : Byte)
  /-- 7xkk, add immediate (42_alu R131). -/
  | addImm (x : Nibble) (kk : Byte)
  /-- 8xy0, copy register (42_alu R132). -/
  | ldReg (x y : Nibble)
  /-- 8xy1, bitwise or (42_alu R133). -/
  | or (x y : Nibble)
  /-- 8xy2, bitwise and (42_alu R134). -/
  | and (x y : Nibble)
  /-- 8xy3, bitwise exclusive or (42_alu R135). -/
  | xor (x y : Nibble)
  /-- 8xy4, add registers with carry (42_alu R136). -/
  | addReg (x y : Nibble)
  /-- 8xy5, subtract Vy from Vx (42_alu R137). -/
  | sub (x y : Nibble)
  /-- 8xy6, shift right by one; y is decoded and not used (42_alu R138, 30_encoding R74). -/
  | shr (x y : Nibble)
  /-- 8xy7, subtract Vx from Vy (42_alu R139). -/
  | subn (x y : Nibble)
  /-- 8xyE, shift left by one; y is decoded and not used (42_alu R140, 30_encoding R74). -/
  | shl (x y : Nibble)
  /-- 9xy0, skip if registers not equal (41_control R117). -/
  | sneReg (x y : Nibble)
  /-- Annn, load index (43_index_memory R150). -/
  | ldI (nnn : Addr)
  /-- Bnnn, jump with offset V0 (41_control R118). -/
  | jpV0 (nnn : Addr)
  /-- Cxkk, random byte masked (42_alu R141). -/
  | rnd (x : Nibble) (kk : Byte)
  /-- Dxyn, draw sprite of n rows (44_display R176). -/
  | drw (x y n : Nibble)
  /-- Ex9E, skip if key down (45_keys_timers R190). -/
  | skp (x : Nibble)
  /-- ExA1, skip if key up (45_keys_timers R191). -/
  | sknp (x : Nibble)
  /-- Fx07, read delay timer (45_keys_timers R192). -/
  | ldVxDt (x : Nibble)
  /-- Fx0A, wait for a key (45_keys_timers R193). -/
  | ldVxK (x : Nibble)
  /-- Fx15, set delay timer (45_keys_timers R194). -/
  | ldDtVx (x : Nibble)
  /-- Fx18, set sound timer (45_keys_timers R195). -/
  | ldStVx (x : Nibble)
  /-- Fx1E, add register to index (43_index_memory R151). -/
  | addI (x : Nibble)
  /-- Fx29, point index at a font glyph (43_index_memory R152). -/
  | ldF (x : Nibble)
  /-- Fx33, store binary-coded decimal (43_index_memory R153). -/
  | ldB (x : Nibble)
  /-- Fx55, store registers V0..Vx (43_index_memory R154). -/
  | ldMemVx (x : Nibble)
  /-- Fx65, load registers V0..Vx (43_index_memory R155). -/
  | ldVxMem (x : Nibble)
  deriving DecidableEq, Repr

end Sys2Proof
end

