-- ==== Sys2Proof/Machine/Agents.lean ====
section
/-! DEFINITION. What an agent can do at its turn: the host's actions and the three agents' turns (00_scope R5, 60_exceptions R234). -/

namespace Sys2Proof.Machine

/-- The host's actions (60_exceptions R234).  `build` is `State.build`; `set KD[k]` is no action of
the model, since the key-down inputs are draws at each read (60 R233, log entry 7). -/
inductive HostAction where
  /-- loadFont(bytes), mode Idle only (70_reset R252). -/
  | loadFont (bytes : List Byte)
  /-- loadRom(bytes), mode Idle only (70_reset R253). -/
  | loadRom (bytes : List Byte)
  /-- The start action (60_exceptions R229, R234). -/
  | start
  /-- The stop action, at any time (60_exceptions R229, R234). -/
  | stop
  /-- signalPress(k), the keyboard's toggle (60_exceptions R232); k > 15 is refused (92 D28). -/
  | signalPress (k : Nat)
  /-- A read of the block's outputs; no effect (60_exceptions R234, R235). -/
  | read
  deriving DecidableEq, Repr

/-- One turn of the machine: which agent makes its step (00_scope R5). -/
inductive Turn where
  /-- One cycle, one poll or the stop step of the core (40_cycle R90, R98, R99). -/
  | core
  /-- One tick of the timer pair (60_exceptions R227). -/
  | tick
  /-- One action of the host (60_exceptions R234). -/
  | host (a : HostAction)
  deriving DecidableEq, Repr, Inhabited

end Sys2Proof.Machine
end

