-- ==== Sys2Proof/WellFormed.lean ====
section
/-! DEFINITION. When an instruction and a host action are well formed. -/

namespace Sys2Proof

/-- Every term of `Instr` is well formed: each field has exactly the width of its opcode field, and
the spec admits every value of every field (30_encoding R74; 10_state R21: every index names a
register).  So there is no ill-formed instruction term to refuse. -/
def Instr.wellFormed (_ : Instr) : Bool := true

/-- The number of bytes of the font (70_reset R252). -/
def fontSize : Nat := 80

/-- ROM_MAX, the largest ROM (00_scope R6, 70_reset R253). -/
def romMax : Nat := 3584

/-- A host action whose argument meets the host interface's contract: 80 font bytes (70_reset R252),
at most 3584 ROM bytes (R253), a key index 0..15 (60_exceptions R234). -/
def Machine.HostAction.wellFormed : Machine.HostAction → Bool
  | .loadFont bytes => bytes.length == fontSize
  | .loadRom bytes => bytes.length ≤ romMax
  | .signalPress k => k < 16
  | .start => true
  | .stop => true
  | .read => true

end Sys2Proof
end

