-- ==== Sys2Proof/Decode.lean ====
section
/-! DEFINITION. The decoder (30_encoding R76), then the encoder and the opcode map, from the same tables (R72, R75). -/

namespace Sys2Proof

/-- The result of decoding one word: an instruction, or the explicit unimplemented case
(30_encoding R76, R77). -/
inductive Decoded where
  | instr (i : Instr)
  | unimplemented (op : Word)
  deriving DecidableEq, Repr

/-- The result of decoding a string of bytes: an instruction and the bytes after it, or a rejection
by name: an unimplemented word (30_encoding R77), or fewer than two bytes. -/
inductive DecodedBytes where
  | instr (i : Instr) (rest : List Byte)
  | unimplemented (op : Word)
  | truncated
  deriving DecidableEq, Repr

/-- The nibble n0 = op[15:12], the primary family (30_encoding R71). -/
def fieldFamily (op : Word) : Nibble := op.extractLsb' 12 4

/-- x = op[11:8] (30_encoding R71). -/
def fieldX (op : Word) : Nibble := op.extractLsb' 8 4

/-- y = op[7:4] (30_encoding R71). -/
def fieldY (op : Word) : Nibble := op.extractLsb' 4 4

/-- n = op[3:0] (30_encoding R71). -/
def fieldN (op : Word) : Nibble := op.extractLsb' 0 4

/-- kk = op[7:0] (30_encoding R71). -/
def fieldKk (op : Word) : Byte := op.extractLsb' 0 8

/-- nnn = op[11:0] (30_encoding R71). -/
def fieldNnn (op : Word) : Addr := op.extractLsb' 0 12

/-- The family 8xyN, by its function nibble (30_encoding R76). -/
def decodeArith (op : Word) : Decoded :=
  match (fieldN op).toNat with
  | 0x0 => .instr (.ldReg (fieldX op) (fieldY op))
  | 0x1 => .instr (.or (fieldX op) (fieldY op))
  | 0x2 => .instr (.and (fieldX op) (fieldY op))
  | 0x3 => .instr (.xor (fieldX op) (fieldY op))
  | 0x4 => .instr (.addReg (fieldX op) (fieldY op))
  | 0x5 => .instr (.sub (fieldX op) (fieldY op))
  | 0x6 => .instr (.shr (fieldX op) (fieldY op))
  | 0x7 => .instr (.subn (fieldX op) (fieldY op))
  | 0xE => .instr (.shl (fieldX op) (fieldY op))
  | _ => .unimplemented op

/-- The family ExKK, by its low byte (30_encoding R76). -/
def decodeKeys (op : Word) : Decoded :=
  match (fieldKk op).toNat with
  | 0x9E => .instr (.skp (fieldX op))
  | 0xA1 => .instr (.sknp (fieldX op))
  | _ => .unimplemented op

/-- The family FxKK, by its low byte (30_encoding R76). -/
def decodeMisc (op : Word) : Decoded :=
  match (fieldKk op).toNat with
  | 0x07 => .instr (.ldVxDt (fieldX op))
  | 0x0A => .instr (.ldVxK (fieldX op))
  | 0x15 => .instr (.ldDtVx (fieldX op))
  | 0x18 => .instr (.ldStVx (fieldX op))
  | 0x1E => .instr (.addI (fieldX op))
  | 0x29 => .instr (.ldF (fieldX op))
  | 0x33 => .instr (.ldB (fieldX op))
  | 0x55 => .instr (.ldMemVx (fieldX op))
  | 0x65 => .instr (.ldVxMem (fieldX op))
  | _ => .unimplemented op

/-- The decoder, a total function of the opcode alone (30_encoding R76). -/
def decodeWord (op : Word) : Decoded :=
  match (fieldFamily op).toNat with
  | 0x0 => if op = 0x00E0#16 then .instr .cls
           else if op = 0x00EE#16 then .instr .ret
           else .unimplemented op
  | 0x1 => .instr (.jp (fieldNnn op))
  | 0x2 => .instr (.call (fieldNnn op))
  | 0x3 => .instr (.seImm (fieldX op) (fieldKk op))
  | 0x4 => .instr (.sneImm (fieldX op) (fieldKk op))
  | 0x5 => if fieldN op = 0 then .instr (.seReg (fieldX op) (fieldY op)) else .unimplemented op
  | 0x6 => .instr (.ldImm (fieldX op) (fieldKk op))
  | 0x7 => .instr (.addImm (fieldX op) (fieldKk op))
  | 0x8 => decodeArith op
  | 0x9 => if fieldN op = 0 then .instr (.sneReg (fieldX op) (fieldY op)) else .unimplemented op
  | 0xA => .instr (.ldI (fieldNnn op))
  | 0xB => .instr (.jpV0 (fieldNnn op))
  | 0xC => .instr (.rnd (fieldX op) (fieldKk op))
  | 0xD => .instr (.drw (fieldX op) (fieldY op) (fieldN op))
  | 0xE => decodeKeys op
  | _ => decodeMisc op

/-- A word from its two bytes in memory order: big-endian (20_memory R54). -/
def wordOfBytes (hi lo : Byte) : Word := hi ++ lo

/-- The two bytes of a word in memory order: big-endian (20_memory R54). -/
def bytesOfWord (op : Word) : List Byte := [op.extractLsb' 8 8, op.extractLsb' 0 8]

/-- Decoding any string of bytes: the first two are the opcode (30_encoding R70). -/
def decode : List Byte → DecodedBytes
  | hi :: lo :: rest =>
    match decodeWord (wordOfBytes hi lo) with
    | .instr i => .instr i rest
    | .unimplemented op => .unimplemented op
  | _ => .truncated

/-- Format NNN: opcode nibble, then nnn (30_encoding R72). -/
def formatNNN (op : Nibble) (nnn : Addr) : Word := op ++ nnn

/-- Format XKK: opcode nibble, x, kk (30_encoding R72). -/
def formatXKK (op x : Nibble) (kk : Byte) : Word := (op ++ x : BitVec 8) ++ kk

/-- Formats XY and XYN: opcode nibble, x, y, then the function nibble or n (30_encoding R72). -/
def formatXYN (op x y n : Nibble) : Word := (op ++ x : BitVec 8) ++ (y ++ n : BitVec 8)

/-- The encoder: the word of an instruction by its row of the opcode map (30_encoding R72, R75). -/
def encode : Instr → Word
  | .cls => 0x00E0
  | .ret => 0x00EE
  | .jp nnn => formatNNN 0x1 nnn
  | .call nnn => formatNNN 0x2 nnn
  | .seImm x kk => formatXKK 0x3 x kk
  | .sneImm x kk => formatXKK 0x4 x kk
  | .seReg x y => formatXYN 0x5 x y 0x0
  | .ldImm x kk => formatXKK 0x6 x kk
  | .addImm x kk => formatXKK 0x7 x kk
  | .ldReg x y => formatXYN 0x8 x y 0x0
  | .or x y => formatXYN 0x8 x y 0x1
  | .and x y => formatXYN 0x8 x y 0x2
  | .xor x y => formatXYN 0x8 x y 0x3
  | .addReg x y => formatXYN 0x8 x y 0x4
  | .sub x y => formatXYN 0x8 x y 0x5
  | .shr x y => formatXYN 0x8 x y 0x6
  | .subn x y => formatXYN 0x8 x y 0x7
  | .shl x y => formatXYN 0x8 x y 0xE
  | .sneReg x y => formatXYN 0x9 x y 0x0
  | .ldI nnn => formatNNN 0xA nnn
  | .jpV0 nnn => formatNNN 0xB nnn
  | .rnd x kk => formatXKK 0xC x kk
  | .drw x y n => formatXYN 0xD x y n
  | .skp x => formatXKK 0xE x 0x9E
  | .sknp x => formatXKK 0xE x 0xA1
  | .ldVxDt x => formatXKK 0xF x 0x07
  | .ldVxK x => formatXKK 0xF x 0x0A
  | .ldDtVx x => formatXKK 0xF x 0x15
  | .ldStVx x => formatXKK 0xF x 0x18
  | .addI x => formatXKK 0xF x 0x1E
  | .ldF x => formatXKK 0xF x 0x29
  | .ldB x => formatXKK 0xF x 0x33
  | .ldMemVx x => formatXKK 0xF x 0x55
  | .ldVxMem x => formatXKK 0xF x 0x65

/-- The opcode map's (mask, match) pairs in the table's order (30_encoding R75). -/
def opcodeMap : List (Word × Word) :=
  [(0xFFFF, 0x00E0), (0xFFFF, 0x00EE), (0xF000, 0x1000), (0xF000, 0x2000), (0xF000, 0x3000),
   (0xF000, 0x4000), (0xF00F, 0x5000), (0xF000, 0x6000), (0xF000, 0x7000), (0xF00F, 0x8000),
   (0xF00F, 0x8001), (0xF00F, 0x8002), (0xF00F, 0x8003), (0xF00F, 0x8004), (0xF00F, 0x8005),
   (0xF00F, 0x8006), (0xF00F, 0x8007), (0xF00F, 0x800E), (0xF00F, 0x9000), (0xF000, 0xA000),
   (0xF000, 0xB000), (0xF000, 0xC000), (0xF000, 0xD000), (0xF0FF, 0xE09E), (0xF0FF, 0xE0A1),
   (0xF0FF, 0xF007), (0xF0FF, 0xF00A), (0xF0FF, 0xF015), (0xF0FF, 0xF018), (0xF0FF, 0xF01E),
   (0xF0FF, 0xF029), (0xF0FF, 0xF033), (0xF0FF, 0xF055), (0xF0FF, 0xF065)]

/-- A word matches a row of the opcode map: its literal digits are the row's (30_encoding R75). -/
def rowMatches (row : Word × Word) (op : Word) : Bool := op &&& row.1 == row.2

/-- The place of an instruction's row in the opcode map, counted from 0 (30_encoding R75). -/
def Instr.row : Instr → Nat
  | .cls => 0 | .ret => 1 | .jp _ => 2 | .call _ => 3 | .seImm _ _ => 4 | .sneImm _ _ => 5
  | .seReg _ _ => 6 | .ldImm _ _ => 7 | .addImm _ _ => 8 | .ldReg _ _ => 9 | .or _ _ => 10
  | .and _ _ => 11 | .xor _ _ => 12 | .addReg _ _ => 13 | .sub _ _ => 14 | .shr _ _ => 15
  | .subn _ _ => 16 | .shl _ _ => 17 | .sneReg _ _ => 18 | .ldI _ => 19 | .jpV0 _ => 20
  | .rnd _ _ => 21 | .drw _ _ _ => 22 | .skp _ => 23 | .sknp _ => 24 | .ldVxDt _ => 25
  | .ldVxK _ => 26 | .ldDtVx _ => 27 | .ldStVx _ => 28 | .addI _ => 29 | .ldF _ => 30
  | .ldB _ => 31 | .ldMemVx _ => 32 | .ldVxMem _ => 33

/-- The word whose low nbits bits are those of w, the bits above being 0. -/
def tableWord (nbits w : Nat) : Word := BitVec.ofNat 16 (w % 2 ^ nbits)

/-- The instruction the decoder reads from a table row's word of nbits bits, laid out in memory
order (20_memory R54); none where the decoder rejects it. -/
def decodeTableWord (nbits w : Nat) : Option Instr :=
  match decode (bytesOfWord (tableWord nbits w)) with
  | .instr i _ => some i
  | .unimplemented _ => none
  | .truncated => none

end Sys2Proof
end

