-- ==== Sys2Proof/Config.lean ====
section
/-! DEFINITION. The parameters of a machine (00_scope R6) and the free values: opaque constants with no body. -/

namespace Sys2Proof

/-- The configuration constants of a machine: fixed when it is built and never changed
(10_state R39, R44; 92 D12, D18, D20). -/
structure Params where
  /-- STRICT: validate the state around every instruction (40_cycle R95). -/
  strict : Bool
  /-- CLS_CLEARS_FB: 00E0 clears the framebuffer too (44_display R174). -/
  clsClearsFb : Bool
  /-- FONT: the 80 glyph bytes (70_reset R252). -/
  font : Vector Byte 80
  deriving DecidableEq, Repr

namespace Config

/-- The turn taken at the given count of inputs when none is given beforehand: the schedule of the
three agents is free (00_scope R5, 60_exceptions R228; log entry 5). -/
opaque schedule : Nat → Machine.Turn

/-- Rand8(): the random byte drawn at the given count of inputs, under no law
(00_scope R13, 42_alu R141, 92 D19; log entry 6). -/
opaque randByte : Nat → Byte

/-- KeyDown(k): the key-down input of key k read at the given count of inputs, under no law
(00_scope R13, 60_exceptions R233, 92 D14; log entry 7). -/
opaque keyDown : Nat → Nibble → Bool

/-- The customary font (93_implementation_defined G4, from general knowledge), one value of FONT
(log entry 4). -/
def customaryFont : Vector Byte 80 := #v[
  0xF0, 0x90, 0x90, 0x90, 0xF0,  0x20, 0x60, 0x20, 0x20, 0x70,
  0xF0, 0x10, 0xF0, 0x80, 0xF0,  0xF0, 0x10, 0xF0, 0x10, 0xF0,
  0x90, 0x90, 0xF0, 0x10, 0x10,  0xF0, 0x80, 0xF0, 0x10, 0xF0,
  0xF0, 0x80, 0xF0, 0x90, 0xF0,  0xF0, 0x10, 0x20, 0x40, 0x40,
  0xF0, 0x90, 0xF0, 0x90, 0xF0,  0xF0, 0x90, 0xF0, 0x10, 0xF0,
  0xF0, 0x90, 0xF0, 0x90, 0x90,  0xE0, 0x90, 0xE0, 0x90, 0xE0,
  0xF0, 0x80, 0x80, 0x80, 0xF0,  0xE0, 0x90, 0x90, 0x90, 0xE0,
  0xF0, 0x80, 0xF0, 0x80, 0xF0,  0xF0, 0x80, 0xF0, 0x80, 0x80]

/-- The parameters `State.reset` is built with: non-strict, 00E0 clears both, the customary font
(log entries 3 and 4). -/
def resetParams : Params :=
  { strict := false, clsClearsFb := true, font := customaryFont }

end Config

end Sys2Proof
end

