-- ==== Sys2Proof/Machine/State.lean ====
section
/-! DEFINITION. The machine's state as plain data (10_state R20), its faults and refusals, and the state after reset (R44). -/

namespace Sys2Proof.Machine

/-- The invariants of `Valid()` in the order they are checked (40_cycle R95). -/
inductive InvalidReason where
  /-- Item 1: a general register outside [0, 255]. -/
  | registerRange
  /-- Item 2: I outside [0, 4095]. -/
  | indexRange
  /-- Item 3: PC odd. -/
  | pcOdd
  /-- Item 4: PC outside [0x200, 0xFFE]. -/
  | pcRange
  /-- Item 5: more than 16 stack entries. -/
  | stackDepth
  /-- Item 6: a stack entry odd or outside [0x200, 0xFFE]. -/
  | stackEntry
  deriving DecidableEq, Repr

/-- The spec's eight faults with the info each records (60_exceptions R211).  Raising one is a NEXT
state: fault entry (60 R221) records it in the fault record and ends the run, and no step answers
`Host.Outcome.fault` (log entry 8). -/
inductive Fault where
  /-- Code 1, by fetch, Dxyn, Fx33, Fx55, Fx65 (60 R212).  Safe: the spec's own fault. -/
  | memOutOfRange (addr : Nat)
  /-- Code 2, by 2nnn at depth 16 (60 R213).  Safe: the spec's own fault. -/
  | stackOverflow (target : Addr)
  /-- Code 3, by 00EE at depth 0 (60 R214).  Safe: the spec's own fault. -/
  | stackUnderflow
  /-- Code 4, by 2nnn to an odd address in strict mode (60 R215).  Safe: the spec's own fault. -/
  | invalidAddress (target : Addr)
  /-- Code 5, by the decoder (60 R216).  Safe: the spec's own fault. -/
  | unimplementedOpcode (op : Word)
  /-- Code 6, by Ex9E and ExA1 (60 R217).  Safe: the spec's own fault. -/
  | keyOutOfRange (value : Byte)
  /-- Code 7, by the strict-mode validation (60 R219).  Safe: the spec's own fault. -/
  | invalidState (reason : InvalidReason)
  /-- Code 8, by Fx1E, Fx55, Fx65 (60 R218).  Safe: the spec's own fault. -/
  | indexOutOfRange (value : Nat)
  deriving DecidableEq, Repr

/-- Why a step has no meaning. -/
inductive Refusal where
  /-- An instruction without a meaning: raised by no arm of exec now.  Safe. -/
  | notModelled (mnemonic : String)
  /-- The host signals a key index outside 0..15: raised by `hostStep` (60_exceptions R234, 92 D28,
  93 item 16).  Safe: the host never does so. -/
  | hostKeyOutOfRange (k : Nat)
  /-- The host loads, or starts a machine that is not running, outside mode Idle: raised by
  `hostStep`; the host has no such move (60_exceptions R234, 93 items 17 and 18).  Safe. -/
  | hostNotIdle
  deriving DecidableEq, Repr

/-- The core's mode (10_state R34). -/
inductive Mode where
  /-- Built, not yet started. -/
  | idle
  /-- Executing cycles. -/
  | run
  /-- Inside Fx0A, waiting for a key for Vx; PC is already advanced. -/
  | awaitKey (x : Nibble)
  /-- The host stopped the machine; final. -/
  | stopped
  /-- A fault was raised; final. -/
  | faulted
  deriving DecidableEq, Repr

/-- The fault record (60_exceptions R221): the fault (its code, name and info are read from the
constructor: `Fault.code`, `Fault.name`), the address A of the instruction being fetched or
executed, and its opcode (none for a fetch fault). -/
structure FaultRecord where
  fault : Fault
  addr : Word
  op : Option Word
  deriving DecidableEq, Repr

/-- A 64 x 32 grid of booleans, column first as the spec indexes it: g[x][y] (10_state R35). -/
abbrev Grid := Vector (Vector Bool 32) 64

/-- Memory: (address, byte) pairs in canonical form (`Mem.wf`). -/
abbrev Mem := List Host.Cell

/-- The machine's free inputs, as plain data: those already given, oldest first, and the count of
inputs taken so far, to which the opaque constants of Config are applied once the lists are empty
(the model's own fields: log entries 5, 6, 7). -/
structure Inputs where
  agenda : List Turn
  bytes : List Byte
  keys : List Bool
  clock : Nat
  deriving DecidableEq, Repr

/-- The whole state (10_state R20). -/
structure State where
  /-- V0..VF (10_state R21). -/
  v : Vector Byte 16
  /-- The index register (10_state R28). -/
  i : Addr
  /-- The program counter (10_state R25). -/
  pc : Word
  /-- The call stack's return addresses, the newest last (10_state R29). -/
  stack : List Word
  /-- The core's mode (10_state R34). -/
  mode : Mode
  /-- The fault record (10_state R40). -/
  fault : Option FaultRecord
  /-- The 4096-byte memory (10_state R41). -/
  mem : Mem
  /-- The framebuffer FB (10_state R35). -/
  fb : Grid
  /-- The display copy Disp (10_state R36). -/
  disp : Grid
  /-- The display copy's dirty flag (10_state R36). -/
  dirty : Bool
  /-- The published snapshot Out, none before the first (10_state R37, R44). -/
  out : Option Grid
  /-- The delay counter (10_state R32). -/
  dt : Byte
  /-- The sound counter (10_state R32). -/
  st : Byte
  /-- The running flag (10_state R33). -/
  running : Bool
  /-- The keyboard's currently pressed key (10_state R38). -/
  pressed : Option Nibble
  /-- The configuration constants (10_state R39, R44). -/
  params : Params
  /-- The free inputs (the model's own). -/
  inputs : Inputs
  deriving DecidableEq, Repr

/-- INIT: the reset contents the spec leaves unspecified (10_state R45, 92 D17). -/
structure Init where
  v : Vector Byte 16
  i : Addr
  dt : Byte
  st : Byte
  mem : Mem
  fb : Grid
  disp : Grid
  dirty : Bool
  deriving DecidableEq, Repr

/-- PC_INIT, the entry point and the ROM's base (00_scope R6, 10_state R44). -/
def pcInit : Word := 0x200

/-- No input given beforehand: every input is free. -/
def Inputs.free : Inputs := { agenda := [], bytes := [], keys := [], clock := 0 }

/-- The host's build action: the state of a fresh machine (10_state R44, 70_reset R250). -/
def State.build (params : Params) (init : Init) : State :=
  { v := init.v
    i := init.i
    pc := pcInit
    stack := []
    mode := .idle
    fault := none
    mem := init.mem
    fb := init.fb
    disp := init.disp
    dirty := init.dirty
    out := none
    dt := init.dt
    st := init.st
    running := false
    pressed := none
    params := params
    inputs := .free }

/-- The grid with every pixel off. -/
def Grid.off : Grid := Vector.replicate 64 (Vector.replicate 32 false)

/-- The model's named INIT: every register 0, nothing listed in memory, every pixel off
(DESIGN CHOICE, log entries 1 and 2). -/
def Init.zero : Init :=
  { v := Vector.replicate 16 0
    i := 0
    dt := 0
    st := 0
    mem := []
    fb := Grid.off
    disp := Grid.off
    dirty := false }

/-- The machine right after reset: built with the named parameters and the named INIT. -/
def State.reset : State := State.build Config.resetParams Init.zero

end Sys2Proof.Machine
end

