-- ==== Sys2Proof/Machine/Ops.lean ====
section
/-! DEFINITION. The named operations over memory, registers, PC, stack, grids and inputs; raising a fault (60_exceptions R221). -/

namespace Sys2Proof.Machine

/-! ## Memory (20_memory R50 to R52) -/

/-- MEM_SIZE (00_scope R6, 20_memory R50). -/
def memSize : Nat := 4096

/-- What a cell no entry lists holds: INIT.mem of the model (DESIGN CHOICE, log entry 1). -/
def unlistedByte : Byte := 0

/-- The byte a memory holds at an address. -/
def Mem.read : Mem → Nat → Byte
  | [], _ => unlistedByte
  | (k, b) :: rest, a => if a = k then b else Mem.read rest a

/-- Puts an entry at the head, unless its byte is what an unlisted cell holds. -/
def Mem.entry (a : Nat) (b : Byte) (rest : Mem) : Mem :=
  if b = unlistedByte then rest else (a, b) :: rest

/-- Sets one cell, keeping the entries sorted. -/
def Mem.write : Mem → Nat → Byte → Mem
  | [], a, b => Mem.entry a b []
  | (k, c) :: rest, a, b =>
    if a < k then Mem.entry a b ((k, c) :: rest)
    else if a = k then Mem.entry a b rest
    else (k, c) :: Mem.write rest a b

/-- Writes bytes to consecutive cells from an address up. -/
def Mem.writeList : Mem → Nat → List Byte → Mem
  | m, _, [] => m
  | m, a, b :: bs => Mem.writeList (m.write a b) (a + 1) bs

/-- The entries' addresses rise strictly from `lo` on and stay below MEM_SIZE, and no entry holds
what an unlisted cell holds. -/
def Mem.wfFrom : Nat → Mem → Bool
  | _, [] => true
  | lo, (k, b) :: rest => decide (lo ≤ k) && decide (k < memSize) && b != unlistedByte && Mem.wfFrom (k + 1) rest

/-- The canonical form of a memory. -/
def Mem.wf (m : Mem) : Bool := Mem.wfFrom 0 m

/-- The byte of memory at an address, as a reader of the state sees it. -/
def State.byteAt (s : State) (a : Nat) : Byte := s.mem.read a

/-- MemRead(addr, 1) (20_memory R51). -/
def memRead (addr : Nat) (s : State) : Except Fault Byte :=
  if addr < memSize then .ok (s.byteAt addr) else .error (.memOutOfRange addr)

/-- MemWrite(addr, 1, v) (20_memory R52). -/
def memWrite (addr : Nat) (v : Byte) (s : State) : Except Fault State :=
  if addr < memSize then .ok { s with mem := s.mem.write addr v } else .error (.memOutOfRange addr)

/-! ## Registers, PC and stack -/

/-- Reads V[x] (10_state R21). -/
def State.getV (s : State) (x : Nibble) : Byte := s.v[x.toNat]'x.isLt

/-- Writes V[x] (10_state R21). -/
def State.setV (s : State) (x : Nibble) (b : Byte) : State := { s with v := s.v.set x.toNat b x.isLt }

/-- The index of VF (10_state R22). -/
def vf : Nibble := 0xF

/-- `PC <- target` (00_scope R9). -/
def State.setPc (s : State) (target : Word) : State := { s with pc := target }

/-- The per-cycle advance, PC <- PC + 2 (40_cycle R92). -/
def advance (s : State) : State := s.setPc (s.pc + 2)

/-- `skip`, PC <- PC + 2 (41_control R113). -/
def skip (s : State) : State := s.setPc (s.pc + 2)

/-- `I <- v` (00_scope R9). -/
def State.setI (s : State) (a : Addr) : State := { s with i := a }

/-- The core goes to another mode (10_state R34). -/
def State.setMode (s : State) (m : Mode) : State := { s with mode := m }

/-- STACK_DEPTH (00_scope R6, 10_state R29). -/
def stackDepth : Nat := 16

/-! ## Grids (44_display R171) -/

/-- getPixel: both coordinates wrap (44_display R171). -/
def Grid.get (g : Grid) (x y : Nat) : Bool :=
  (g[x % 64]'(Nat.mod_lt x (by decide)))[y % 32]'(Nat.mod_lt y (by decide))

/-- setPixel: both coordinates wrap (44_display R171). -/
def Grid.put (g : Grid) (x y : Nat) (b : Bool) : Grid :=
  g.set (x % 64) ((g[x % 64]'(Nat.mod_lt x (by decide))).set (y % 32) b (Nat.mod_lt y (by decide)))
    (Nat.mod_lt x (by decide))

/-! ## Free inputs (00_scope R13) -/

/-- The next turn: the given one, else the free schedule's (log entry 5). -/
def State.nextTurn (s : State) : Turn := s.inputs.agenda.headD (Config.schedule s.inputs.clock)

/-- The state once its next turn is taken from the inputs. -/
def State.takeTurn (s : State) : State :=
  { s with inputs := { s.inputs with agenda := s.inputs.agenda.tail, clock := s.inputs.clock + 1 } }

/-- Rand8(): the next random byte (00_scope R9, R13; log entry 6). -/
def State.nextByte (s : State) : Byte := s.inputs.bytes.headD (Config.randByte s.inputs.clock)

/-- The state once a random byte is drawn. -/
def State.takeByte (s : State) : State :=
  { s with inputs := { s.inputs with bytes := s.inputs.bytes.tail, clock := s.inputs.clock + 1 } }

/-- KeyDown(k): the next reading of key k's input (00_scope R9, R13; 60_exceptions R233; log entry 7). -/
def State.nextKey (s : State) (k : Nibble) : Bool := s.inputs.keys.headD (Config.keyDown s.inputs.clock k)

/-- The state once a key-down input is read. -/
def State.takeKey (s : State) : State :=
  { s with inputs := { s.inputs with keys := s.inputs.keys.tail, clock := s.inputs.clock + 1 } }

/-! ## Faults (60_exceptions) -/

/-- The spec's code of a fault (60_exceptions R211). -/
def Fault.code : Fault → Nat
  | .memOutOfRange _ => 1
  | .stackOverflow _ => 2
  | .stackUnderflow => 3
  | .invalidAddress _ => 4
  | .unimplementedOpcode _ => 5
  | .keyOutOfRange _ => 6
  | .invalidState _ => 7
  | .indexOutOfRange _ => 8

/-- The spec's name of a fault (60_exceptions R211). -/
def Fault.name : Fault → String
  | .memOutOfRange _ => "MemOutOfRange"
  | .stackOverflow _ => "StackOverflow"
  | .stackUnderflow => "StackUnderflow"
  | .invalidAddress _ => "InvalidAddress"
  | .unimplementedOpcode _ => "UnimplementedOpcode"
  | .keyOutOfRange _ => "KeyOutOfRange"
  | .invalidState _ => "InvalidState"
  | .indexOutOfRange _ => "IndexOutOfRange"

/-- Fault entry (60_exceptions R221): the record is written, the mode becomes Faulted and `running`
false; nothing else changes.  The spec has no return from a fault (60 R223). -/
def takeFault (f : Fault) (a : Word) (op : Option Word) (s : State) : State :=
  { s with fault := some { fault := f, addr := a, op := op }, mode := .faulted, running := false }

/-- `raise F(info)` while instruction i executes: A is PC - 2 as it stands after the advance
(60_exceptions R221). -/
def raiseIn (i : Instr) (f : Fault) (s : State) : State :=
  takeFault f (s.pc - 2) (some (encode i)) s

/-- How an instruction's effect ends: done, or a fault raised with the effects made before it
(00_scope R12). -/
inductive Effect where
  | done (s : State)
  | raised (f : Fault) (s : State)
  deriving DecidableEq, Repr

/-- The state an effect leaves, whether it is done or raised a fault. -/
def Effect.final : Effect → State
  | .done s => s
  | .raised _ s => s

/-- Sequencing of effects: a raise ends the instruction (00_scope R12). -/
def Effect.andThen : Effect → (State → Effect) → Effect
  | .done s, k => k s
  | .raised f s, _ => .raised f s

/-- The outcome of instruction i with the given effect: a next state, by fault entry if a fault was
raised (60_exceptions R221). -/
def Effect.outcome (i : Instr) : Effect → Host.Outcome State Fault Refusal
  | .done s => .next s
  | .raised f s => .next (raiseIn i f s)

/-- `I <- t` for a computed t, or IndexOutOfRange(t) with I unchanged (10_state R28, 60_exceptions R218). -/
def writeIndex (t : Nat) (s : State) : Effect :=
  if t < memSize then .done (s.setI (BitVec.ofNat 12 t)) else .raised (.indexOutOfRange t) s

/-! ## Strict-mode validation (40_cycle R95) -/

/-- An address that strict mode admits for PC and for stack entries: in [0x200, 0xFFE] (40_cycle R95). -/
def strictRange (a : Word) : Bool := decide (0x200 ≤ a.toNat) && decide (a.toNat ≤ 0xFFE)

/-- An odd address. -/
def isOdd (a : Word) : Bool := a.getLsbD 0

/-- The first invariant of `Valid()` that fails, in the spec's order; none if the state is valid (40_cycle R95). -/
def firstInvalid (s : State) : Option InvalidReason :=
  if !(s.v.toList.all fun b => decide (b.toNat ≤ 255)) then some .registerRange
  else if !decide (s.i.toNat < memSize) then some .indexRange
  else if isOdd s.pc then some .pcOdd
  else if !strictRange s.pc then some .pcRange
  else if !decide (s.stack.length ≤ stackDepth) then some .stackDepth
  else if !(s.stack.all fun e => !isOdd e && strictRange e) then some .stackEntry
  else none

/-- The failed invariant that raises InvalidState at a validation point: only in strict mode
(40_cycle R93, R96). -/
def strictFailure (s : State) : Option InvalidReason :=
  if s.params.strict then firstInvalid s else none

/-! ## Display copy (10_state R36, R37) -/

/-- DisplayUpdate() (44_display R173). -/
def displayUpdate (s : State) : State :=
  { s with disp := s.fb, dirty := s.dirty || decide (s.disp ≠ s.fb) }

/-- DisplayClear() (44_display R175). -/
def displayClear (s : State) : State := { s with disp := Grid.off }

/-- Publish (40_cycle R97). -/
def publish (s : State) : State := { s with out := some s.disp, dirty := false }

end Sys2Proof.Machine
end

