-- ==== Sys2Proof/Machine/Operands.lean ====
section
/-! DEFINITION. The operand forms: I-relative addresses (43_index_memory R156), key indices (45_keys_timers R190), conditional skips (41_control R113), decimal digits (43 R153). -/

namespace Sys2Proof.Machine

/-- The I-relative effective address I + k, computed without wrap-around (43_index_memory R156). -/
def indexed (s : State) (k : Nat) : Nat := s.i.toNat + k

/-- zext_16(nnn), the target of a jump or call (30_encoding R73). -/
def target (nnn : Addr) : Word := nnn.setWidth 16

/-- zext_16(nnn) + zext_16(V0), the target of Bnnn (41_control R118). -/
def offsetTarget (nnn : Addr) (v0 : Byte) : Word := nnn.setWidth 16 + v0.setWidth 16

/-- `if c then skip` (41_control R113): PC alone depends on c. -/
def skipIf (c : Bool) (s : State) : State := s.setPc (if c then (skip s).pc else s.pc)

/-- The key index a register holds: none if it exceeds 15 (45_keys_timers R190). -/
def keyIndex (a : Byte) : Option Nibble := if a.toNat ≤ 15 then some (a.setWidth 4) else none

/-- The address of the glyph a register names, a * 5 with the full 8-bit a (43_index_memory R152). -/
def glyphAddr (a : Byte) : Addr := BitVec.ofNat 12 (a.toNat * 5)

/-- The hundreds digit of a byte (43_index_memory R153). -/
def hundreds (a : Byte) : Byte := BitVec.ofNat 8 (a.toNat / 100)

/-- The tens digit of a byte (43_index_memory R153). -/
def tens (a : Byte) : Byte := BitVec.ofNat 8 (a.toNat / 10 % 10)

/-- The ones digit of a byte (43_index_memory R153). -/
def ones (a : Byte) : Byte := BitVec.ofNat 8 (a.toNat % 10)

/-- A key index as a register value (45_keys_timers R193). -/
def keyByte (k : Nibble) : Byte := k.setWidth 8

/-- MemWrite as an effect: a failing check raises and writes nothing (20_memory R52). -/
def storeByte (addr : Nat) (b : Byte) (s : State) : Effect :=
  match memWrite addr b s with
  | .ok s' => .done s'
  | .error f => .raised f s

/-- MemRead as an effect, the byte handed to k (20_memory R51). -/
def loadByte (addr : Nat) (k : Byte → Effect) (s : State) : Effect :=
  match memRead addr s with
  | .ok b => k b
  | .error f => .raised f s

end Sys2Proof.Machine
end

