-- ==== Sys2Proof/Machine/Alu.lean ====
section
/-! DEFINITION. Register loads, arithmetic, logic, shifts and the random byte (42_alu). -/

namespace Sys2Proof.Machine

/-- The result into V[x], then the flag into VF: at x = F VF ends as the flag (42_alu R136, R137, R139; 92 D7). -/
def resultThenFlag (x : Nibble) (result : Byte) (flag : Byte) (s : State) : State :=
  (s.setV x result).setV vf flag

/-- The flag into VF, then the result into V[x]: at x = F VF ends as the result (42_alu R138, R140; 92 D7). -/
def flagThenResult (x : Nibble) (flag : Byte) (result : Byte) (s : State) : State :=
  (s.setV vf flag).setV x result

/-- LD Vx, kk (42_alu R130). -/
def execLdImm (x : Nibble) (kk : Byte) (s : State) : Host.Outcome State Fault Refusal :=
  .next (s.setV x kk)

/-- ADD Vx, kk (42_alu R131): no flag. -/
def execAddImm (x : Nibble) (kk : Byte) (s : State) : Host.Outcome State Fault Refusal :=
  .next (s.setV x (sumByte (s.getV x) kk))

/-- LD Vx, Vy (42_alu R132). -/
def execLdReg (x y : Nibble) (s : State) : Host.Outcome State Fault Refusal :=
  .next (s.setV x (s.getV y))

/-- OR Vx, Vy (42_alu R133): no flag. -/
def execOr (x y : Nibble) (s : State) : Host.Outcome State Fault Refusal :=
  .next (s.setV x (s.getV x ||| s.getV y))

/-- AND Vx, Vy (42_alu R134): no flag. -/
def execAnd (x y : Nibble) (s : State) : Host.Outcome State Fault Refusal :=
  .next (s.setV x (s.getV x &&& s.getV y))

/-- XOR Vx, Vy (42_alu R135): no flag. -/
def execXor (x y : Nibble) (s : State) : Host.Outcome State Fault Refusal :=
  .next (s.setV x (s.getV x ^^^ s.getV y))

/-- ADD Vx, Vy (42_alu R136): VF = carry, written last. -/
def execAddReg (x y : Nibble) (s : State) : Host.Outcome State Fault Refusal :=
  .next (resultThenFlag x (sumByte (s.getV x) (s.getV y)) (flagByte (carryOf (s.getV x) (s.getV y))) s)

/-- SUB Vx, Vy (42_alu R137): VF = no borrow, written last. -/
def execSub (x y : Nibble) (s : State) : Host.Outcome State Fault Refusal :=
  .next (resultThenFlag x (diffByte (s.getV x) (s.getV y)) (flagByte (noBorrowOf (s.getV x) (s.getV y))) s)

/-- SHR Vx (42_alu R138): VF = the bit shifted out, written first; Vy is not used. -/
def execShr (x _y : Nibble) (s : State) : Host.Outcome State Fault Refusal :=
  .next (flagThenResult x (lowBit (s.getV x)) (shiftRight (s.getV x)) s)

/-- SUBN Vx, Vy (42_alu R139): VF = no borrow of Vy - Vx, written last. -/
def execSubn (x y : Nibble) (s : State) : Host.Outcome State Fault Refusal :=
  .next (resultThenFlag x (diffByte (s.getV y) (s.getV x)) (flagByte (noBorrowOf (s.getV y) (s.getV x))) s)

/-- SHL Vx (42_alu R140): VF = the bit shifted out, written first; Vy is not used. -/
def execShl (x _y : Nibble) (s : State) : Host.Outcome State Fault Refusal :=
  .next (flagThenResult x (highBit (s.getV x)) (shiftLeft (s.getV x)) s)

/-- RND Vx, kk (42_alu R141): a fresh draw, masked. -/
def execRnd (x : Nibble) (kk : Byte) (s : State) : Host.Outcome State Fault Refusal :=
  .next (s.takeByte.setV x (s.nextByte &&& kk))

end Sys2Proof.Machine
end

