-- ==== Sys2Proof/Machine/Control.lean ====
section
/-! DEFINITION. Control transfer: RET, JP, CALL, the skips, JP V0 (41_control). -/

namespace Sys2Proof.Machine

/-- RET (41_control R110): pop() into PC, or StackUnderflow. -/
def execRet (s : State) : Host.Outcome State Fault Refusal :=
  match s.stack.getLast? with
  | none => .next (raiseIn .ret .stackUnderflow s)
  | some a => .next ({ s with stack := s.stack.dropLast }.setPc a)

/-- JP (41_control R111). -/
def execJp (nnn : Addr) (s : State) : Host.Outcome State Fault Refusal :=
  .next (s.setPc (target nnn))

/-- CALL (41_control R112): the overflow check, the strict-mode check, push(PC), then the jump. -/
def execCall (nnn : Addr) (s : State) : Host.Outcome State Fault Refusal :=
  if s.stack.length ≥ stackDepth then .next (raiseIn (.call nnn) (.stackOverflow nnn) s)
  else if s.params.strict && isOdd (target nnn) then
    .next (raiseIn (.call nnn) (.invalidAddress nnn) s)
  else .next ({ s with stack := s.stack ++ [s.pc] }.setPc (target nnn))

/-- SE Vx, kk (41_control R114). -/
def execSeImm (x : Nibble) (kk : Byte) (s : State) : Host.Outcome State Fault Refusal :=
  .next (skipIf (s.getV x == kk) s)

/-- SNE Vx, kk (41_control R115). -/
def execSneImm (x : Nibble) (kk : Byte) (s : State) : Host.Outcome State Fault Refusal :=
  .next (skipIf (s.getV x != kk) s)

/-- SE Vx, Vy (41_control R116). -/
def execSeReg (x y : Nibble) (s : State) : Host.Outcome State Fault Refusal :=
  .next (skipIf (s.getV x == s.getV y) s)

/-- SNE Vx, Vy (41_control R117). -/
def execSneReg (x y : Nibble) (s : State) : Host.Outcome State Fault Refusal :=
  .next (skipIf (s.getV x != s.getV y) s)

/-- JP V0, nnn (41_control R118). -/
def execJpV0 (nnn : Addr) (s : State) : Host.Outcome State Fault Refusal :=
  .next (s.setPc (offsetTarget nnn (s.getV 0)))

end Sys2Proof.Machine
end

