-- ==== Sys2Proof/Machine/Display.lean ====
section
/-! DEFINITION. The framebuffer pixel-collision engine and its instructions (44_display). -/

namespace Sys2Proof.Machine

/-- CLS (44_display R174): the display copy, and the framebuffer when CLS_CLEARS_FB. -/
def execCls (s : State) : Host.Outcome State Fault Refusal :=
  .next (if s.params.clsClearsFb then { displayClear s with fb := Grid.off } else displayClear s)

/-- The XOR pixel primitive (44_display R172), with the collision recorded in VF (R176). -/
def xorPixel (px py : Nat) (s : State) : State :=
  let flipped := { s with fb := s.fb.put px py (!s.fb.get px py) }
  if s.fb.get px py then flipped.setV vf 1 else flipped

/-- Bit `bit` of a sprite row, the most significant first: s[7 - bit] (44_display R176). -/
def spriteBit (b : Byte) (bit : Nat) : Bool := b.getLsbD (7 - bit)

/-- One bit of a sprite row whose left end is at column x0 of row y (44_display R176). -/
def drawBit (b : Byte) (x0 y : Nat) (s : State) (bit : Nat) : State :=
  if spriteBit b bit then xorPixel ((x0 + bit) % 64) y s else s

/-- One row of a sprite, bit 0 to bit 7 (44_display R176). -/
def drawRow (b : Byte) (x0 y : Nat) (s : State) : State :=
  (List.range 8).foldl (drawBit b x0 y) s

/-- The rows of a sprite from `row` on, `count` of them (44_display R176). -/
def drawRows (x0 y0 : Nat) : (count : Nat) → (row : Nat) → State → Effect
  | 0, _, s => .done s
  | k + 1, row, s =>
    loadByte (indexed s row) (fun b => drawRows x0 y0 k (row + 1) (drawRow b x0 ((y0 + row) % 32) s)) s

/-- DRW Vx, Vy, n (44_display R176): the coordinates are read before VF is reset.  DEDUCED (log entry
22): with n = 0 DisplayUpdate still copies FB into Disp, as the pseudocode says and the corner case
does not.  VF is R176's and R177's also on a second draw, where R178 says otherwise (log entry 19). -/
def execDrw (x y n : Nibble) (s : State) : Host.Outcome State Fault Refusal :=
  ((drawRows ((s.getV x).toNat % 64) ((s.getV y).toNat % 32) n.toNat 0 (s.setV vf 0)).andThen
    fun t => .done (displayUpdate t)).outcome (.drw x y n)

end Sys2Proof.Machine
end

