-- ==== Sys2Proof/Machine/Index.lean ====
section
/-! DEFINITION. Index register and memory instructions (43_index_memory). -/

namespace Sys2Proof.Machine

/-- LD I, nnn (43_index_memory R150). -/
def execLdI (nnn : Addr) (s : State) : Host.Outcome State Fault Refusal :=
  .next (s.setI nnn)

/-- ADD I, Vx (43_index_memory R151): IndexOutOfRange leaves I unchanged; no flag. -/
def execAddI (x : Nibble) (s : State) : Host.Outcome State Fault Refusal :=
  (writeIndex (s.i.toNat + (s.getV x).toNat) s).outcome (.addI x)

/-- LD F, Vx (43_index_memory R152). -/
def execLdF (x : Nibble) (s : State) : Host.Outcome State Fault Refusal :=
  .next (s.setI (glyphAddr (s.getV x)))

/-- The three writes of Fx33, in address order (43_index_memory R153). -/
def storeBcd (a : Byte) (s : State) : Effect :=
  (storeByte (indexed s 0) (hundreds a) s).andThen fun s1 =>
  (storeByte (indexed s 1) (tens a) s1).andThen fun s2 =>
  storeByte (indexed s 2) (ones a) s2

/-- LD B, Vx (43_index_memory R153). -/
def execLdB (x : Nibble) (s : State) : Host.Outcome State Fault Refusal :=
  (storeBcd (s.getV x) s).outcome (.ldB x)

/-- `for j in from .. from + count - 1: MemWrite(I + j, 1, V[j])` (43_index_memory R154). -/
def storeRegs : (count : Nat) → (j : Nat) → State → Effect
  | 0, _, s => .done s
  | n + 1, j, s =>
    (storeByte (indexed s j) (s.getV (BitVec.ofNat 4 j)) s).andThen (storeRegs n (j + 1))

/-- `for j in from .. from + count - 1: V[j] <- MemRead(I + j, 1)` (43_index_memory R155). -/
def loadRegs : (count : Nat) → (j : Nat) → State → Effect
  | 0, _, s => .done s
  | n + 1, j, s =>
    loadByte (indexed s j) (fun b => loadRegs n (j + 1) (s.setV (BitVec.ofNat 4 j) b)) s

/-- `I <- I + x + 1`, the end of Fx55 and Fx65 (43_index_memory R154, R155). -/
def bumpIndex (x : Nibble) (s : State) : Effect := writeIndex (s.i.toNat + x.toNat + 1) s

/-- LD [I], Vx (43_index_memory R154). -/
def execLdMemVx (x : Nibble) (s : State) : Host.Outcome State Fault Refusal :=
  ((storeRegs (x.toNat + 1) 0 s).andThen (bumpIndex x)).outcome (.ldMemVx x)

/-- LD Vx, [I] (43_index_memory R155). -/
def execLdVxMem (x : Nibble) (s : State) : Host.Outcome State Fault Refusal :=
  ((loadRegs (x.toNat + 1) 0 s).andThen (bumpIndex x)).outcome (.ldVxMem x)

end Sys2Proof.Machine
end

