-- ==== Sys2Proof/Machine/KeysTimers.lean ====
section
/-! DEFINITION. Key and timer instructions (45_keys_timers), and the timer agent's tick (60_exceptions R227). -/

namespace Sys2Proof.Machine

/-- SKP Vx (45_keys_timers R190): KeyOutOfRange before the key is read. -/
def execSkp (x : Nibble) (s : State) : Host.Outcome State Fault Refusal :=
  match keyIndex (s.getV x) with
  | none => .next (raiseIn (.skp x) (.keyOutOfRange (s.getV x)) s)
  | some k => .next (skipIf (s.nextKey k) s.takeKey)

/-- SKNP Vx (45_keys_timers R191). -/
def execSknp (x : Nibble) (s : State) : Host.Outcome State Fault Refusal :=
  match keyIndex (s.getV x) with
  | none => .next (raiseIn (.sknp x) (.keyOutOfRange (s.getV x)) s)
  | some k => .next (skipIf (!s.nextKey k) s.takeKey)

/-- LD Vx, DT (45_keys_timers R192). -/
def execLdVxDt (x : Nibble) (s : State) : Host.Outcome State Fault Refusal :=
  .next (s.setV x s.dt)

/-- LD Vx, K (45_keys_timers R193): the recorded key at once, or the wait; `pressed` stays. -/
def execLdVxK (x : Nibble) (s : State) : Host.Outcome State Fault Refusal :=
  match s.pressed with
  | some k => .next (s.setV x (keyByte k))
  | none => .next (s.setMode (.awaitKey x))

/-- LD DT, Vx (45_keys_timers R194). -/
def execLdDtVx (x : Nibble) (s : State) : Host.Outcome State Fault Refusal :=
  .next { s with dt := s.getV x }

/-- LD ST, Vx (45_keys_timers R195). -/
def execLdStVx (x : Nibble) (s : State) : Host.Outcome State Fault Refusal :=
  .next { s with st := s.getV x }

/-- One counter's part of a tick: down to a floor of 0 (60_exceptions R227). -/
def countDown (c : Byte) : Byte := if c.toNat > 0 then c - 1 else c

/-- The timer agent's step, enabled only while `running` (60_exceptions R227; log entry 9). -/
def tick (s : State) : State :=
  if s.running then { s with dt := countDown s.dt, st := countDown s.st } else s

end Sys2Proof.Machine
end

