-- ==== Sys2Proof/Machine/HostActions.lean ====
section
/-! DEFINITION. The host's actions (60_exceptions R234) and what the host sees (R235). -/

namespace Sys2Proof.Machine

/-- loadFont's writes: the bytes at [0, 80) (70_reset R252). -/
def loadFontBytes (bytes : List Byte) (s : State) : State :=
  { s with mem := s.mem.writeList 0 bytes }

/-- loadRom's writes: the bytes from 0x200 (70_reset R253). -/
def loadRomBytes (bytes : List Byte) (s : State) : State :=
  { s with mem := s.mem.writeList pcInit.toNat bytes }

/-- A load of the host: mode Idle only (60_exceptions R234, log entry 10); a load error changes no
state of the block (70_reset R254, log entry 11).  DESIGN CHOICE (log entry 21): loadFont takes any 80
bytes, also bytes that are not the instance's FONT. -/
def hostLoad (a : HostAction) (effect : State → State) (s : State) : Host.Outcome State Fault Refusal :=
  if s.mode = .idle then .next (if a.wellFormed then effect s else s) else .refused .hostNotIdle

/-- The start action: mode Idle, or a no-op while running (60_exceptions R229, R234; log entries 10, 13). -/
def hostStart (s : State) : Host.Outcome State Fault Refusal :=
  if s.mode = .idle then .next ({ s with running := true }.setMode .run)
  else if s.running then .next s
  else .refused .hostNotIdle

/-- The stop action (60_exceptions R229). -/
def hostStop (s : State) : State := { s with running := false }

/-- The toggle of the recorded key (60_exceptions R232). -/
def toggleKey (k : Nibble) (s : State) : State :=
  { s with pressed := match s.pressed with
                      | some _ => none
                      | none => some k }

/-- signalPress(k) (60_exceptions R232); k outside 0..15 is refused (92 D28, log entry 10). -/
def hostSignal (k : Nat) (s : State) : Host.Outcome State Fault Refusal :=
  if k < 16 then .next (toggleKey (BitVec.ofNat 4 k) s) else .refused (.hostKeyOutOfRange k)

/-- One action of the host (60_exceptions R234). -/
def hostStep (a : HostAction) (s : State) : Host.Outcome State Fault Refusal :=
  match a with
  | .loadFont bytes => hostLoad (.loadFont bytes) (loadFontBytes bytes) s
  | .loadRom bytes => hostLoad (.loadRom bytes) (loadRomBytes bytes) s
  | .start => hostStart s
  | .stop => .next (hostStop s)
  | .signalPress k => hostSignal k s
  | .read => .next s

/-- What a load of the host reports to its caller: true exactly on a load error (70_reset R252 to
R254). -/
def loadErrorReported (a : HostAction) : Bool :=
  match a with
  | .loadFont bytes => !HostAction.wellFormed (.loadFont bytes)
  | .loadRom bytes => !HostAction.wellFormed (.loadRom bytes)
  | .start => false
  | .stop => false
  | .signalPress _ => false
  | .read => false

/-- The block's outputs, which a read of the host returns (60_exceptions R234, R235). -/
structure HostView where
  out : Option Grid
  dirty : Bool
  st : Byte
  running : Bool
  mode : Mode
  fault : Option FaultRecord
  deriving DecidableEq, Repr

/-- What the host reads of a state (60_exceptions R234, R235). -/
def State.hostView (s : State) : HostView :=
  { out := s.out, dirty := s.dirty, st := s.st, running := s.running, mode := s.mode, fault := s.fault }

/-- The host's boot of a built machine: the font FONT, the ROM, the start (70_reset R251; log entry 12). -/
def bootSequence (params : Params) (rom : List Byte) : List HostAction :=
  [.loadFont params.font.toList, .loadRom rom, .start]

end Sys2Proof.Machine
end

