-- ==== Sys2Proof/Machine/Cycle.lean ====
section
/-! DEFINITION. The core agent's step: fetch, advance, validate, execute, validate, publish; the poll and the stop step (40_cycle R90 to R100). -/

namespace Sys2Proof.Machine

/-- Fetch: the two bytes at PC, high byte first; the address is never reduced (40_cycle R91). -/
def fetch (s : State) : Except Fault Word :=
  match memRead s.pc.toNat s with
  | .error f => .error f
  | .ok hi =>
    match memRead (s.pc.toNat + 1) s with
    | .error f => .error f
    | .ok lo => .ok (wordOfBytes hi lo)

/-- finish(): the post-execute validation, then the publication; A and op are those of the
instruction that completes (40_cycle R96, R97, R100). -/
def finish (a op : Word) (s : State) : State :=
  match strictFailure s with
  | some r => takeFault (.invalidState r) a (some op) s
  | none => publish s

/-- The end of a cycle after its instruction: nothing after a fault or while a key is awaited, else
finish() (40_cycle R94, R97, R100). -/
def endCycle (a op : Word) (s : State) : State :=
  match s.mode with
  | .faulted => s
  | .awaitKey _ => s
  | .idle => finish a op s
  | .run => finish a op s
  | .stopped => finish a op s

/-- Execution of a decoded word fetched at A, in the advanced state (40_cycle R94; 60_exceptions R216). -/
def executeWord (a op : Word) (s : State) : Host.Outcome State Fault Refusal :=
  match decodeWord op with
  | .unimplemented w => .next (takeFault (.unimplementedOpcode w) a (some op) s)
  | .instr i =>
    match exec i s with
    | .next t => .next (endCycle a op t)
    | .fault f => .fault f
    | .refused r => .refused r

/-- One cycle (40_cycle R91 to R97). -/
def runCycle (s : State) : Host.Outcome State Fault Refusal :=
  match fetch s with
  | .error f => .next (takeFault f s.pc none s)
  | .ok op =>
    match strictFailure (advance s) with
    | some r => .next (takeFault (.invalidState r) s.pc (some op) (advance s))
    | none => executeWord s.pc op (advance s)

/-- One poll of an Fx0A that waits for V[x] (40_cycle R99); PC is A + 2 (log entry 15). -/
def poll (x : Nibble) (s : State) : State :=
  match s.pressed with
  | none => s
  | some k => finish (s.pc - 2) (encode (.ldVxK x)) ((s.setV x (keyByte k)).setMode .run)

/-- The stop step (40_cycle R98). -/
def stopCore (s : State) : State := s.setMode .stopped

/-- The core's step (40_cycle R90, R100); a core with no step stays as it is (log entry 9). -/
def coreStep (s : State) : Host.Outcome State Fault Refusal :=
  match s.mode with
  | .idle => .next s
  | .run => if s.running then runCycle s else .next (stopCore s)
  | .awaitKey x => if s.running then .next (poll x s) else .next (stopCore s)
  | .stopped => .next s
  | .faulted => .next s

/-- A turn of one of the three agents (00_scope R5). -/
def turnStep (t : Turn) (s : State) : Host.Outcome State Fault Refusal :=
  match t with
  | .core => coreStep s
  | .tick => .next (tick s)
  | .host a => hostStep a s

/-- Memory with a word's two bytes at an address, high byte first (20_memory R54); as it was where
the word does not fit below MEM_SIZE. -/
def Mem.writeWord (m : Mem) (a : Nat) (w : Word) : Mem :=
  if a + 1 < memSize then m.writeList a (bytesOfWord w) else m

end Sys2Proof.Machine
end

