-- ==== Sys2Proof/Machine/Step.lean ====
section
/-! DEFINITION. One step of the machine: the next turn is taken from the inputs and its agent steps (00_scope R5). -/

namespace Sys2Proof.Machine

/-- One step: the agent whose turn it is makes its step (00_scope R5; log entry 5). -/
def step (s : State) : Host.Outcome State Fault Refusal := turnStep s.nextTurn s.takeTurn

/-- The state whose very next step is the cycle that fetches the given word: the word's bytes at PC,
the machine started, the next turn the core's (70_reset R251; log entry 12). -/
def State.withFetchWord (s : State) (nbits w : Nat) : State :=
  { s with
    mem := s.mem.writeWord s.pc.toNat (tableWord nbits w)
    mode := .run
    running := true
    inputs := { s.inputs with agenda := .core :: s.inputs.agenda } }

end Sys2Proof.Machine
end

