-- ==== Sys2Proof/Safety.lean ====
section
/-! DEFINITION. The terms claims use: what a step keeps, what a fault leaves, the invariants of the machine. -/

namespace Sys2Proof.Machine

/-! ## Frames -/

/-- Every byte of memory reads the same before and after. -/
def SameMem (s t : State) : Prop := ∀ a, t.byteAt a = s.byteAt a

/-- Every general register not in the list reads the same before and after. -/
def KeepsV (xs : List Nibble) (s t : State) : Prop := ∀ r, r ∉ xs → t.getV r = s.getV r

/-- Only general registers of the list may differ: every other register, every other field of the
state and every byte of memory is as it was. -/
def WritesOnlyV (xs : List Nibble) (s t : State) : Prop :=
  t = { s with v := t.v } ∧ KeepsV xs s t ∧ SameMem s t

/-- Only I may differ. -/
def WritesOnlyI (s t : State) : Prop := t = { s with i := t.i } ∧ SameMem s t

/-- Instruction i, executing in s, raised f: what a reader may rely on after a fault
(60_exceptions R221, R222): the record, the mode, `running`, the last snapshot. -/
def TakesFault (i : Instr) (f : Fault) (s t : State) : Prop :=
  t.fault = some { fault := f, addr := s.pc - 2, op := some (encode i) } ∧
  t.mode = .faulted ∧ t.running = false ∧ t.out = s.out

/-- The post-execute validation of the instruction op at A fails with reason r in state t
(40_cycle R96). -/
def PostFaults (a op : Word) (r : InvalidReason) (t : State) : Prop :=
  endCycle a op t = takeFault (.invalidState r) a (some op) t

/-! ## What a turn is -/

/-- The core's turn has come in mode Run with `running` true: the step is a cycle (40_cycle R90). -/
def AtCycle (s : State) : Prop := s.nextTurn = .core ∧ s.mode = .run ∧ s.running = true

/-- The step of s is a cycle whose fetched word decodes to i. -/
def Executes (s : State) (i : Instr) : Prop :=
  AtCycle s ∧ ∃ op, fetch s = .ok op ∧ decodeWord op = .instr i

/-! ## The sprite of a Dxyn -/

/-- Whether the wrapped sprite image of `DRW Vx, Vy, n` has an on bit at (px, py) (44_display R171,
R176, R177). -/
def spriteCovers (s : State) (x y n : Nibble) (px py : Nat) : Bool :=
  (List.range n.toNat).any fun row =>
    (List.range 8).any fun bit =>
      decide (px = ((s.getV x).toNat + bit) % 64) && decide (py = ((s.getV y).toNat + row) % 32) &&
        spriteBit (s.byteAt (indexed s row)) bit

/-! ## Invariants -/

/-- The memory is in canonical form. -/
def MemInv (s : State) : Prop := s.mem.wf = true

/-- PC holds at most 0x10FE (10_state R25), the stack at most 16 entries, each a return address of a
fetched instruction, at most 0x1000. -/
def PcInv (s : State) : Prop :=
  s.pc.toNat ≤ 0x10FE ∧ s.stack.length ≤ 16 ∧ ∀ e ∈ s.stack, e.toNat ≤ 0x1000

/-- A fault is recorded exactly in mode Faulted, and `running` is true only in Run and AwaitKey
(10_state R33, R34, R40; 60_exceptions R221). -/
def ModeInv (s : State) : Prop :=
  (s.mode = .faulted ↔ s.fault ≠ none) ∧
  (s.running = true → s.mode = .run ∨ ∃ x, s.mode = .awaitKey x)

/-- In strict mode the state is valid unless a fault was raised (40_cycle R101, R102). -/
def StrictInv (s : State) : Prop :=
  s.params.strict = true → s.mode ≠ .faulted → firstInvalid s = none

end Sys2Proof.Machine
end

