-- ==== Sys2Proof/Certificates/Slice0/Obligations.lean ====
section
/-! DEFINITION. The statements for the provers. -/

open Sys2Proof Sys2Proof.Machine

/-! ## Encoding and decoding (30_encoding) -/

/-- Decoding an encoded instruction gives it back, whatever bytes follow (R72, R75, R76). -/
def Obligations.DecodeOfEncodedInstruction : Prop :=
  ∀ (i : Instr) (rest : List Byte), decode (bytesOfWord (encode i) ++ rest) = .instr i rest

/-- A word that decodes to an instruction is that instruction's word: each word has one meaning (R76). -/
def Obligations.DecodedWordReencodes : Prop :=
  ∀ (w : Word) (i : Instr), decodeWord w = .instr i → encode i = w

/-- The decoder follows the opcode map: an instruction's word matches its row, and a word is
unimplemented exactly if it matches no row (R75, R76, R77). -/
def Obligations.DecoderFollowsOpcodeMap : Prop :=
  ∀ w : Word,
    (∀ i, decodeWord w = .instr i → ∃ row, opcodeMap[i.row]? = some row ∧ rowMatches row w = true) ∧
    (decodeWord w = .unimplemented w ↔ ∀ row ∈ opcodeMap, rowMatches row w = false)

/-- Every word matches at most one row of the opcode map (R75). -/
def Obligations.OpcodeRowsAreDisjoint : Prop :=
  ∀ (w : Word) (j k : Nat) (r q : Word × Word), opcodeMap[j]? = some r → opcodeMap[k]? = some q →
    rowMatches r w = true → rowMatches q w = true → j = k

/-- A few words of the spec's own examples decode as they stand there, and some do not decode. -/
def Obligations.SpecWordsDecode : Prop :=
  decodeWord 0x1234 = .instr (.jp 0x234) ∧ decodeWord 0x8AB6 = .instr (.shr 0xA 0xB) ∧
  decodeWord 0xD125 = .instr (.drw 1 2 5) ∧ decodeWord 0x6A05 = .instr (.ldImm 0xA 0x05) ∧
  decodeWord 0x3210 = .instr (.seImm 2 0x10) ∧ decodeWord 0xF21E = .instr (.addI 2) ∧
  decodeWord 0xE19E = .instr (.skp 1) ∧ decodeWord 0xF20A = .instr (.ldVxK 2) ∧
  decodeWord 0x00E0 = .instr .cls ∧ decodeWord 0x00E1 = .unimplemented 0x00E1 ∧
  decodeWord 0x5121 = .unimplemented 0x5121 ∧ decodeWord 0xF030 = .unimplemented 0xF030

/-! ## The cycle (40_cycle) -/

/-- When the bytes at PC decode to a well-formed instruction i, a cycle is exec of i in the advanced
state, ended by `endCycle` (R92, R94, R100). -/
def Obligations.StepRunsDecodedInstruction : Prop :=
  ∀ (s : State) (op : Word) (i : Instr), AtCycle s → s.pc.toNat + 1 < 4096 →
    op = wordOfBytes (s.byteAt s.pc.toNat) (s.byteAt (s.pc.toNat + 1)) →
    strictFailure (advance s.takeTurn) = none → decodeWord op = .instr i → i.wellFormed = true →
    step s = match exec i (advance s.takeTurn) with
             | .next t => .next (endCycle s.pc op t)
             | .fault f => .fault f
             | .refused r => .refused r

/-- Fetch (R91): the word at PC, big-endian, or MemOutOfRange with PC not advanced. -/
def Obligations.FetchReadsWordOrFaults : Prop :=
  ∀ s : State,
    (s.pc.toNat + 1 < 4096 →
      fetch s = .ok (s.byteAt s.pc.toNat ++ s.byteAt (s.pc.toNat + 1) : BitVec 16)) ∧
    (AtCycle s → 4096 ≤ s.pc.toNat →
      ∃ t, step s = .next t ∧ t.pc = s.pc ∧
        t.fault = some { fault := .memOutOfRange s.pc.toNat, addr := s.pc, op := none } ∧
        t.mode = .faulted ∧ t.running = false) ∧
    (AtCycle s → s.pc.toNat = 4095 →
      ∃ t, step s = .next t ∧ t.pc = s.pc ∧
        t.fault = some { fault := .memOutOfRange 4096, addr := s.pc, op := none } ∧
        t.mode = .faulted ∧ t.running = false)

/-- A word that matches no row of the opcode map faults after the pre-execute validation, whose own
fault comes first, and before any effect (60 R216). -/
def Obligations.UnimplementedWordFaults : Prop :=
  ∀ (s : State) (op : Word), AtCycle s → fetch s = .ok op →
    (∀ row ∈ opcodeMap, rowMatches row op = false) →
    (strictFailure (advance s.takeTurn) = none →
      step s = .next { advance s.takeTurn with
        fault := some { fault := .unimplementedOpcode op, addr := s.pc, op := some op }
        mode := .faulted
        running := false }) ∧
    (∀ r, strictFailure (advance s.takeTurn) = some r →
      step s = .next { advance s.takeTurn with
        fault := some { fault := .invalidState r, addr := s.pc, op := some op }
        mode := .faulted
        running := false })

/-- `Valid()` and the order of its reasons (R95). -/
def Obligations.ValidityChecksItemsInOrder : Prop :=
  ∀ s : State,
    (firstInvalid s = none ↔
      s.pc.toNat % 2 = 0 ∧ 0x200 ≤ s.pc.toNat ∧ s.pc.toNat ≤ 0xFFE ∧ s.stack.length ≤ 16 ∧
      ∀ e ∈ s.stack, e.toNat % 2 = 0 ∧ 0x200 ≤ e.toNat ∧ e.toNat ≤ 0xFFE) ∧
    firstInvalid s ≠ some .registerRange ∧ firstInvalid s ≠ some .indexRange ∧
    (firstInvalid s = some .pcOdd ↔ s.pc.toNat % 2 = 1) ∧
    (firstInvalid s = some .pcRange ↔
      s.pc.toNat % 2 = 0 ∧ ¬(0x200 ≤ s.pc.toNat ∧ s.pc.toNat ≤ 0xFFE)) ∧
    (firstInvalid s = some .stackDepth ↔
      s.pc.toNat % 2 = 0 ∧ 0x200 ≤ s.pc.toNat ∧ s.pc.toNat ≤ 0xFFE ∧ 16 < s.stack.length) ∧
    (firstInvalid s = some .stackEntry ↔
      s.pc.toNat % 2 = 0 ∧ 0x200 ≤ s.pc.toNat ∧ s.pc.toNat ≤ 0xFFE ∧ s.stack.length ≤ 16 ∧
      ∃ e ∈ s.stack, ¬(e.toNat % 2 = 0 ∧ 0x200 ≤ e.toNat ∧ e.toNat ≤ 0xFFE))

/-- The validations around an instruction (R93, R96): in strict mode a failure raises InvalidState,
before the instruction has any effect or after it; where both pass the cycle completes and publishes
(R97, R100); outside strict mode nothing is checked. -/
def Obligations.StrictModeValidatesAroundInstruction : Prop :=
  ∀ s : State,
    (∀ op r, AtCycle s → fetch s = .ok op → s.params.strict = true →
      firstInvalid (advance s.takeTurn) = some r →
      step s = .next { advance s.takeTurn with
        fault := some { fault := .invalidState r, addr := s.pc, op := some op }
        mode := .faulted
        running := false }) ∧
    (∀ op i t r, Executes s i → fetch s = .ok op → s.params.strict = true →
      firstInvalid (advance s.takeTurn) = none → exec i (advance s.takeTurn) = .next t →
      t.mode = .run → firstInvalid t = some r →
      step s = .next { t with
        fault := some { fault := .invalidState r, addr := s.pc, op := some op }
        mode := .faulted
        running := false }) ∧
    (∀ i t, Executes s i → s.params.strict = true → firstInvalid (advance s.takeTurn) = none →
      exec i (advance s.takeTurn) = .next t → t.mode = .run → firstInvalid t = none →
      step s = .next { t with out := some t.disp, dirty := false }) ∧
    (∀ i t, Executes s i → s.params.strict = false →
      exec i (advance s.takeTurn) = .next t → t.mode = .run →
      step s = .next { t with out := some t.disp, dirty := false })

/-- Publication (R97): a cycle that completes publishes Disp and clears dirty; one that faults or
waits for a key publishes nothing; a cycle ends in no other mode. -/
def Obligations.CompletedCyclePublishes : Prop :=
  ∀ s t : State, AtCycle s → step s = .next t →
    (t.mode = .run ∧ t.out = some t.disp ∧ t.dirty = false) ∨
    (t.mode = .faulted ∧ t.out = s.out) ∨
    (∃ x, t.mode = .awaitKey x ∧ t.out = s.out)

/-- Whose turn it is (00_scope R5; the given turns and the count are the model's own: log entry 5): the
first given turn, or, with none given, the free schedule's; taking it changes the inputs alone. -/
def Obligations.TurnsComeFromTheGivenOrTheSchedule : Prop :=
  ∀ s : State,
    (∀ u rest, s.inputs.agenda = u :: rest → s.nextTurn = u ∧ s.takeTurn.inputs.agenda = rest) ∧
    (s.inputs.agenda = [] →
      s.nextTurn = Config.schedule s.inputs.clock ∧ s.takeTurn.inputs.agenda = []) ∧
    s.takeTurn = { s with inputs := s.takeTurn.inputs } ∧
    s.takeTurn.inputs.clock = s.inputs.clock + 1 ∧
    s.takeTurn.inputs.bytes = s.inputs.bytes ∧ s.takeTurn.inputs.keys = s.inputs.keys

/-- The stop step (R98): with `running` false a core in Run or AwaitKey goes to Stopped and does nothing
else, V[x] and the wait's key included. -/
def Obligations.CoreStopsWhenNotRunning : Prop :=
  ∀ s : State, s.nextTurn = .core → s.running = false →
    (s.mode = .run → step s = .next { s.takeTurn with mode := .stopped }) ∧
    (∀ x, s.mode = .awaitKey x → step s = .next { s.takeTurn with mode := .stopped })

/-- An agent whose turn comes while it has no enabled step passes it: nothing but the turn taken changes
(R90, R100; 60 R227; the passed turn is the model's own: log entry 9). -/
def Obligations.AgentWithoutStepPassesItsTurn : Prop :=
  ∀ s : State,
    (s.nextTurn = .core → s.mode = .idle ∨ s.mode = .stopped ∨ s.mode = .faulted →
      step s = .next s.takeTurn) ∧
    (s.nextTurn = .tick → s.running = false → step s = .next s.takeTurn)

/-- The poll step (R99): nothing without a key; with one, V[x] takes it and the cycle completes,
validated in strict mode and published; `pressed` stays. -/
def Obligations.PollCompletesKeyWait : Prop :=
  ∀ (s : State) (x : Nibble), s.nextTurn = .core → s.mode = .awaitKey x → s.running = true →
    (s.pressed = none → step s = .next s.takeTurn) ∧
    (∀ k, s.pressed = some k →
      ∃ t, step s = .next t ∧ (t.getV x).toNat = k.toNat ∧ KeepsV [x] s t ∧ SameMem s t ∧
        t.pressed = some k ∧
        ((s.params.strict = false ∨ firstInvalid s = none) →
          t = { s.takeTurn with v := t.v, mode := .run, out := some s.disp, dirty := false }) ∧
        (∀ r, s.params.strict = true → firstInvalid s = some r →
          t.mode = .faulted ∧ t.running = false ∧ t.out = s.out ∧
          ∃ record, t.fault = some record ∧ record.fault = .invalidState r))

/-- Fault entry (60 R221): a step that enters Faulted clears `running`, publishes nothing and records
the instruction: its address (PC in a cycle, PC - 2 in a poll: log entry 15) and its opcode, none for
a fetch fault. -/
def Obligations.FaultEntryRecordsInstruction : Prop :=
  ∀ s t : State, s.mode ≠ .faulted → step s = .next t → t.mode = .faulted →
    t.running = false ∧ t.out = s.out ∧
    ∃ r, t.fault = some r ∧
      (s.mode = .run → r.addr = s.pc ∧
        (∀ op, fetch s = .ok op → r.op = some op) ∧
        (∀ f, fetch s = .error f → r.op = none ∧ r.fault = f)) ∧
      (∀ x, s.mode = .awaitKey x → r.addr = s.pc - 2 ∧ r.op = some (encode (.ldVxK x)))

/-- The code and the name a fault record holds are those of the spec's table (60 R211), and a code and a
name name the same fault. -/
def Obligations.FaultCodesAndNamesFollowTheTable : Prop :=
  (∀ addr, (Fault.memOutOfRange addr).code = 1 ∧ (Fault.memOutOfRange addr).name = "MemOutOfRange") ∧
  (∀ nnn, (Fault.stackOverflow nnn).code = 2 ∧ (Fault.stackOverflow nnn).name = "StackOverflow") ∧
  (Fault.stackUnderflow.code = 3 ∧ Fault.stackUnderflow.name = "StackUnderflow") ∧
  (∀ nnn, (Fault.invalidAddress nnn).code = 4 ∧ (Fault.invalidAddress nnn).name = "InvalidAddress") ∧
  (∀ op, (Fault.unimplementedOpcode op).code = 5 ∧
    (Fault.unimplementedOpcode op).name = "UnimplementedOpcode") ∧
  (∀ a, (Fault.keyOutOfRange a).code = 6 ∧ (Fault.keyOutOfRange a).name = "KeyOutOfRange") ∧
  (∀ r, (Fault.invalidState r).code = 7 ∧ (Fault.invalidState r).name = "InvalidState") ∧
  (∀ t, (Fault.indexOutOfRange t).code = 8 ∧ (Fault.indexOutOfRange t).name = "IndexOutOfRange") ∧
  ∀ f g : Fault, f.code = g.code ↔ f.name = g.name

/-! ## Invariants -/

/-- Every step keeps the memory's canonical form. -/
def Obligations.StepKeepsMemoryCanonical : Prop :=
  ∀ s t : State, MemInv s → step s = .next t → MemInv t

/-- Every step keeps PC at most 0x10FE and the stack within 16 entries: PC never wraps (10 R25, R26, R29). -/
def Obligations.StepKeepsPcAndStackBounds : Prop :=
  ∀ s t : State, PcInv s → step s = .next t → PcInv t

/-- Every step keeps mode, fault record and `running` consistent (10 R33, R34, R40). -/
def Obligations.StepKeepsModeAndFaultConsistent : Prop :=
  ∀ s t : State, ModeInv s → step s = .next t → ModeInv t

/-- In strict mode every step that raises no fault leaves a valid state, so no fetch is at an odd
address or outside [0x200, 0xFFE] (40 R101). -/
def Obligations.StepKeepsStrictValidity : Prop :=
  (∀ s t : State, StrictInv s → step s = .next t → StrictInv t) ∧
  (∀ s : State, StrictInv s → s.params.strict = true → AtCycle s →
    s.pc.toNat % 2 = 0 ∧ 0x200 ≤ s.pc.toNat ∧ s.pc.toNat ≤ 0xFFE)

/-- A built machine meets every invariant, for every parameter and every INIT with canonical memory;
the machine after reset does. -/
def Obligations.BuiltMachineMeetsInvariants : Prop :=
  (∀ (params : Params) (init : Init), init.mem.wf = true →
    MemInv (State.build params init) ∧ PcInv (State.build params init) ∧
    ModeInv (State.build params init) ∧ StrictInv (State.build params init)) ∧
  MemInv State.reset ∧ PcInv State.reset ∧ ModeInv State.reset ∧ StrictInv State.reset

/-! ## Rules of the whole machine -/

/-- Memory changes only by Fx33, by Fx55, or by a load of the host before the start (20 R60). -/
def Obligations.OnlyStoresAndLoadsChangeMemory : Prop :=
  ∀ (s t : State) (a : Nat), step s = .next t → t.byteAt a ≠ s.byteAt a →
    (∃ x, Executes s (.ldB x) ∨ Executes s (.ldMemVx x)) ∨
    (s.mode = .idle ∧ ∃ bytes, s.nextTurn = .host (.loadFont bytes) ∨ s.nextTurn = .host (.loadRom bytes))

/-- Who writes I, the stack, FB, DT, ST and `pressed` (10 R28, R29, R32, R35, R38). -/
def Obligations.EachStatePieceHasItsWriters : Prop :=
  ∀ s t : State, step s = .next t →
    (t.i ≠ s.i → (∃ nnn, Executes s (.ldI nnn)) ∨
      ∃ x, Executes s (.addI x) ∨ Executes s (.ldF x) ∨ Executes s (.ldMemVx x) ∨ Executes s (.ldVxMem x)) ∧
    (t.stack ≠ s.stack → Executes s .ret ∨ ∃ nnn, Executes s (.call nnn)) ∧
    (t.fb ≠ s.fb → (∃ x y n, Executes s (.drw x y n)) ∨ (Executes s .cls ∧ s.params.clsClearsFb = true)) ∧
    (t.dt ≠ s.dt → (s.nextTurn = .tick ∧ s.running = true) ∨ ∃ x, Executes s (.ldDtVx x)) ∧
    (t.st ≠ s.st → (s.nextTurn = .tick ∧ s.running = true) ∨ ∃ x, Executes s (.ldStVx x)) ∧
    (t.pressed ≠ s.pressed → ∃ k, s.nextTurn = .host (.signalPress k))

/-- Stopped and Faulted are never left and a recorded fault never changes (10 R34, R40); the
parameters never change (R39); `running` once false outside Idle is never set again (60 R229, read as
once false after the start: log entry 13). -/
def Obligations.EndedRunNeverResumes : Prop :=
  ∀ s t : State, step s = .next t →
    (s.mode = .stopped → t.mode = .stopped) ∧
    (s.mode = .faulted → t.mode = .faulted ∧ t.fault = s.fault) ∧
    t.params = s.params ∧
    (s.mode ≠ .idle → s.running = false → t.running = false)

/-! ## The timer pair (60_exceptions) -/

/-- A tick (R227): while running both counters count down to a floor of 0 and nothing else changes;
with `running` false no tick counts (95 K15). -/
def Obligations.TickCountsBothDown : Prop :=
  ∀ s : State, s.nextTurn = .tick →
    (s.running = true →
      ∃ t, step s = .next t ∧ t.dt.toNat = s.dt.toNat - 1 ∧ t.st.toNat = s.st.toNat - 1 ∧
        t = { s.takeTurn with dt := t.dt, st := t.st } ∧ SameMem s t) ∧
    (s.running = false → ∀ t, step s = .next t → t.dt = s.dt ∧ t.st = s.st)

/-- n ticks in a row take n off each counter, never below 0 (R227; the timer scenario of 95 S12). -/
def Obligations.ManyTicksRunTheCountersDown : Prop :=
  ∀ (n : Nat) (s : State), s.running = true →
    (tick^[n] s).dt.toNat = s.dt.toNat - n ∧ (tick^[n] s).st.toNat = s.st.toNat - n ∧
    tick^[n] s = { s with dt := (tick^[n] s).dt, st := (tick^[n] s).st }

/-! ## The host (60_exceptions, 70_reset) -/

/-- loadFont (70 R252, R254): in mode Idle 80 bytes, be they FONT or not (the model's choice: log entry
21), go to [0, 80); any other length is a load error that changes nothing (log entry 11); outside Idle
the action is refused (log entry 10). -/
def Obligations.LoadFontFillsFirstEightyCells : Prop :=
  ∀ (s : State) (bytes : List Byte), s.nextTurn = .host (.loadFont bytes) →
    (s.mode = .idle → bytes.length = 80 → MemInv s →
      loadErrorReported (.loadFont bytes) = false ∧
      ∃ t, step s = .next t ∧ (∀ k, k < 80 → bytes[k]? = some (t.byteAt k)) ∧
        (∀ a, 80 ≤ a → t.byteAt a = s.byteAt a) ∧ t = { s.takeTurn with mem := t.mem }) ∧
    (s.mode = .idle → bytes.length ≠ 80 →
      loadErrorReported (.loadFont bytes) = true ∧ step s = .next s.takeTurn) ∧
    (s.mode ≠ .idle → step s = .refused .hostNotIdle)

/-- loadRom (70 R253, R254): in mode Idle at most 3584 bytes go to 0x200 and up, no other cell is
written; a longer ROM is a load error that changes nothing (log entry 11); outside Idle the action is
refused (log entry 10). -/
def Obligations.LoadRomFillsFromEntryPoint : Prop :=
  ∀ (s : State) (bytes : List Byte), s.nextTurn = .host (.loadRom bytes) →
    (s.mode = .idle → bytes.length ≤ 3584 → MemInv s →
      loadErrorReported (.loadRom bytes) = false ∧
      ∃ t, step s = .next t ∧ (∀ k, k < bytes.length → bytes[k]? = some (t.byteAt (0x200 + k))) ∧
        (∀ a, a < 0x200 ∨ 0x200 + bytes.length ≤ a → t.byteAt a = s.byteAt a) ∧
        t = { s.takeTurn with mem := t.mem }) ∧
    (s.mode = .idle → 3584 < bytes.length →
      loadErrorReported (.loadRom bytes) = true ∧ step s = .next s.takeTurn) ∧
    (s.mode ≠ .idle → step s = .refused .hostNotIdle)

/-- signalPress(k) toggles the recorded key and changes nothing else (60 R232); a key index above 15
is refused (R234). -/
def Obligations.SignalPressToggles : Prop :=
  ∀ (s : State) (k : Nat), s.nextTurn = .host (.signalPress k) →
    (k < 16 → ∃ t, step s = .next t ∧ t = { s.takeTurn with pressed := t.pressed } ∧
      (s.pressed ≠ none → t.pressed = none) ∧
      (s.pressed = none → ∃ key : Nibble, key.toNat = k ∧ t.pressed = some key)) ∧
    (16 ≤ k → step s = .refused (.hostKeyOutOfRange k))

/-- The host's start, stop and read (60 R229, R234).  That a start in Idle sets `running` also after a stop
in Idle, that a start while running is a no-op in every other mode and that a stop is taken in any mode
is the model's reading of the two rules (log entry 13); so is the refused start (log entry 10). -/
def Obligations.HostStartsStopsAndReads : Prop :=
  ∀ s : State,
    (s.nextTurn = .host .start → s.mode = .idle →
      step s = .next { s.takeTurn with running := true, mode := .run }) ∧
    (s.nextTurn = .host .start → s.mode ≠ .idle → s.running = true → step s = .next s.takeTurn) ∧
    (s.nextTurn = .host .start → s.mode ≠ .idle → s.running = false → step s = .refused .hostNotIdle) ∧
    (s.nextTurn = .host .stop → step s = .next { s.takeTurn with running := false }) ∧
    (s.nextTurn = .host .read → step s = .next s.takeTurn)

/-- The boot (70 R251): from a built machine the host's three actions load FONT and the ROM and start
the core at 0x200. -/
def Obligations.BootLoadsAndStarts : Prop :=
  ∀ (params : Params) (init : Init) (rom : List Byte), init.mem.wf = true → rom.length ≤ 3584 →
    ∃ t, Host.Core.run Sys2Proof.core 3
        { State.build params init with
          inputs := { Inputs.free with agenda := (bootSequence params rom).map .host } } = .next t ∧
      t.mode = .run ∧ t.running = true ∧ t.pc = 0x200 ∧ t.stack = [] ∧
      (∀ k (h : k < 80), t.byteAt k = params.font[k]) ∧
      (∀ k, k < rom.length → rom[k]? = some (t.byteAt (0x200 + k)))

/-- The state after construction, for every parameter and every INIT (10 R44, 70 R250); `State.reset` is
one such state, its INIT and parameters being the model's choice (log entries 1 to 4). -/
def Obligations.BuiltStateIsTheResetTable : Prop :=
  (∀ (params : Params) (init : Init),
    (State.build params init).pc = 0x200 ∧ (State.build params init).stack = [] ∧
    (State.build params init).out = none ∧ (State.build params init).running = false ∧
    (State.build params init).mode = .idle ∧ (State.build params init).fault = none ∧
    (State.build params init).pressed = none ∧ (State.build params init).params = params ∧
    (State.build params init).v = init.v ∧ (State.build params init).i = init.i ∧
    (State.build params init).dt = init.dt ∧ (State.build params init).st = init.st ∧
    (State.build params init).mem = init.mem ∧ (State.build params init).fb = init.fb ∧
    (State.build params init).disp = init.disp ∧ (State.build params init).dirty = init.dirty) ∧
  ∃ params init, State.reset = State.build params init

/-! ## Memory (20_memory) -/

/-- MemRead and MemWrite (R51, R52): the cell below 4096, else MemOutOfRange with nothing written; a
write changes its own cell alone. -/
def Obligations.MemoryPrimitivesCheckBounds : Prop :=
  ∀ (s : State) (addr : Nat) (b : Byte),
    (addr < 4096 → memRead addr s = .ok (s.byteAt addr)) ∧
    (4096 ≤ addr → memRead addr s = .error (.memOutOfRange addr) ∧
      memWrite addr b s = .error (.memOutOfRange addr)) ∧
    (addr < 4096 → MemInv s →
      ∃ t, memWrite addr b s = .ok t ∧ t.byteAt addr = b ∧
        (∀ a, a ≠ addr → t.byteAt a = s.byteAt a) ∧ t = { s with mem := t.mem } ∧ MemInv t)

/-! ## Control transfer (41_control) -/

/-- RET (R110): the popped value into PC, or StackUnderflow; in strict mode a popped value that is odd or
out of range would fail the post-execute validation, and no valid state holds one. -/
def Obligations.RetPopsPc : Prop :=
  decodeWord 0x00EE = .instr .ret ∧
  ∀ s : State,
    (∀ rest a, s.stack = rest ++ [a] →
      exec .ret s = .next { s with stack := rest, pc := a } ∧
      (firstInvalid s = none → isOdd a = false ∧ strictRange a = true) ∧
      ∀ at_ op, s.params.strict = true → s.mode = .run →
        (isOdd a = true → PostFaults at_ op .pcOdd { s with stack := rest, pc := a }) ∧
        (isOdd a = false → strictRange a = false →
          PostFaults at_ op .pcRange { s with stack := rest, pc := a })) ∧
    (s.stack = [] → ∃ t, exec .ret s = .next t ∧ TakesFault .ret .stackUnderflow s t ∧
      t.pc = s.pc ∧ t.stack = [])

/-- JP (R111): PC is nnn; the next fetch reads there, or faults at 0xFFF; in strict mode an odd or low
target fails the post-execute validation, outside it the cycle completes. -/
def Obligations.JpSetsPc : Prop :=
  ∀ (nnn : Addr) (s : State),
    decodeWord (formatNNN 0x1 nnn) = .instr (.jp nnn) ∧
    ∃ t, exec (.jp nnn) s = .next t ∧ t.pc.toNat = nnn.toNat ∧ t = { s with pc := t.pc } ∧ SameMem s t ∧
      (nnn.toNat < 0xFFF →
        fetch t = .ok (s.byteAt nnn.toNat ++ s.byteAt (nnn.toNat + 1) : BitVec 16)) ∧
      (nnn.toNat = 0xFFF → fetch t = .error (.memOutOfRange 4096)) ∧
      (∀ at_ op, s.params.strict = false → s.mode = .run → endCycle at_ op t = publish t) ∧
      ∀ at_ op, s.params.strict = true → s.mode = .run →
        (nnn.toNat % 2 = 1 → PostFaults at_ op .pcOdd t) ∧
        (nnn.toNat % 2 = 0 → nnn.toNat < 0x200 → PostFaults at_ op .pcRange t)

/-- CALL (R112): PC (the address after the call) is pushed and the target jumped to; StackOverflow at
depth 16, checked first, and InvalidAddress for an odd target in strict mode leave stack and PC. -/
def Obligations.CallPushesAndJumps : Prop :=
  ∀ (nnn : Addr) (s : State),
    decodeWord (formatNNN 0x2 nnn) = .instr (.call nnn) ∧
    (s.stack.length < 16 → ¬(s.params.strict = true ∧ nnn.toNat % 2 = 1) →
      ∃ t, exec (.call nnn) s = .next t ∧ t.pc.toNat = nnn.toNat ∧ t.stack = s.stack ++ [s.pc] ∧
        t = { s with pc := t.pc, stack := t.stack } ∧ SameMem s t ∧
        ∀ at_ op, s.params.strict = true → s.mode = .run → nnn.toNat < 0x200 →
          PostFaults at_ op .pcRange t) ∧
    (16 ≤ s.stack.length →
      ∃ t, exec (.call nnn) s = .next t ∧ TakesFault (.call nnn) (.stackOverflow nnn) s t ∧
        t.pc = s.pc ∧ t.stack = s.stack) ∧
    (s.stack.length < 16 → s.params.strict = true → nnn.toNat % 2 = 1 →
      ∃ t, exec (.call nnn) s = .next t ∧ TakesFault (.call nnn) (.invalidAddress nnn) s t ∧
        t.pc = s.pc ∧ t.stack = s.stack)

/-- A call and the return that finds its stack come back to the address after the call (R110, R112; 95 S8). -/
def Obligations.ReturnUndoesCall : Prop :=
  ∀ (nnn : Addr) (s : State), s.stack.length < 16 → ¬(s.params.strict = true ∧ nnn.toNat % 2 = 1) →
    ∃ t, exec (.call nnn) s = .next t ∧
      ∀ u : State, u.stack = t.stack → exec .ret u = .next { u with pc := s.pc, stack := s.stack }

/-- SE Vx, kk and SNE Vx, kk (R114, R115). -/
def Obligations.SkipsOnImmediate : Prop :=
  ∀ (x : Nibble) (kk : Byte) (s : State),
    decodeWord (formatXKK 0x3 x kk) = .instr (.seImm x kk) ∧
    decodeWord (formatXKK 0x4 x kk) = .instr (.sneImm x kk) ∧
    (s.getV x = kk → exec (.seImm x kk) s = .next { s with pc := s.pc + 2 } ∧
      exec (.sneImm x kk) s = .next s) ∧
    (s.getV x ≠ kk → exec (.seImm x kk) s = .next s ∧
      exec (.sneImm x kk) s = .next { s with pc := s.pc + 2 })

/-- SE Vx, Vy and SNE Vx, Vy (R116, R117). -/
def Obligations.SkipsOnRegisters : Prop :=
  ∀ (x y : Nibble) (s : State),
    decodeWord (formatXYN 0x5 x y 0) = .instr (.seReg x y) ∧
    decodeWord (formatXYN 0x9 x y 0) = .instr (.sneReg x y) ∧
    (∀ n : Nibble, n ≠ 0 → decodeWord (formatXYN 0x5 x y n) = .unimplemented (formatXYN 0x5 x y n) ∧
      decodeWord (formatXYN 0x9 x y n) = .unimplemented (formatXYN 0x9 x y n)) ∧
    (s.getV x = s.getV y → exec (.seReg x y) s = .next { s with pc := s.pc + 2 } ∧
      exec (.sneReg x y) s = .next s) ∧
    (s.getV x ≠ s.getV y → exec (.seReg x y) s = .next s ∧
      exec (.sneReg x y) s = .next { s with pc := s.pc + 2 }) ∧
    exec (.seReg x x) s = .next { s with pc := s.pc + 2 } ∧ exec (.sneReg x x) s = .next s

/-- JP V0 (R118): the 16-bit sum, never wrapped; from 0xFFF on the next fetch faults; in strict mode an
odd or out-of-range target fails the post-execute validation. -/
def Obligations.JpV0AddsOffset : Prop :=
  ∀ (nnn : Addr) (s : State),
    decodeWord (formatNNN 0xB nnn) = .instr (.jpV0 nnn) ∧
    ∃ t, exec (.jpV0 nnn) s = .next t ∧ t.pc.toNat = nnn.toNat + (s.getV 0).toNat ∧
      t.pc.toNat ≤ 0x10FE ∧ t = { s with pc := t.pc } ∧ SameMem s t ∧
      (∀ u, t.nextTurn = .core → t.mode = .run → t.running = true → 0xFFF ≤ t.pc.toNat →
        step t = .next u → ∃ a, u.fault = some { fault := .memOutOfRange a, addr := t.pc, op := none }) ∧
      ∀ at_ op, s.params.strict = true → s.mode = .run →
        (t.pc.toNat % 2 = 1 → PostFaults at_ op .pcOdd t) ∧
        (t.pc.toNat % 2 = 0 → t.pc.toNat < 0x200 ∨ 0xFFE < t.pc.toNat → PostFaults at_ op .pcRange t)

/-! ## Loads, arithmetic, logic, shifts, random (42_alu) -/

/-- LD Vx, kk (R130). -/
def Obligations.LdImmWritesVx : Prop :=
  ∀ (x : Nibble) (kk : Byte) (s : State),
    decodeWord (formatXKK 0x6 x kk) = .instr (.ldImm x kk) ∧
    ∃ t, exec (.ldImm x kk) s = .next t ∧ t.getV x = kk ∧ WritesOnlyV [x] s t

/-- ADD Vx, kk (R131): no flag. -/
def Obligations.AddImmWrapsWithoutFlag : Prop :=
  ∀ (x : Nibble) (kk : Byte) (s : State),
    decodeWord (formatXKK 0x7 x kk) = .instr (.addImm x kk) ∧
    ∃ t, exec (.addImm x kk) s = .next t ∧
      (t.getV x).toNat = ((s.getV x).toNat + kk.toNat) % 256 ∧ WritesOnlyV [x] s t

/-- LD, OR, AND, XOR of registers (R132 to R135): Vx alone is written, VF only when x = F. -/
def Obligations.CopyAndLogicWriteVxOnly : Prop :=
  ∀ (x y : Nibble) (s : State),
    decodeWord (formatXYN 0x8 x y 0x0) = .instr (.ldReg x y) ∧
    decodeWord (formatXYN 0x8 x y 0x1) = .instr (.or x y) ∧
    decodeWord (formatXYN 0x8 x y 0x2) = .instr (.and x y) ∧
    decodeWord (formatXYN 0x8 x y 0x3) = .instr (.xor x y) ∧
    (∃ t, exec (.ldReg x y) s = .next t ∧ t.getV x = s.getV y ∧ WritesOnlyV [x] s t) ∧
    (∃ t, exec (.or x y) s = .next t ∧ t.getV x = s.getV x ||| s.getV y ∧ WritesOnlyV [x] s t) ∧
    (∃ t, exec (.and x y) s = .next t ∧ t.getV x = s.getV x &&& s.getV y ∧ WritesOnlyV [x] s t) ∧
    (∃ t, exec (.xor x y) s = .next t ∧ t.getV x = s.getV x ^^^ s.getV y ∧ WritesOnlyV [x] s t)

/-- ADD Vx, Vy (R136): VF is the carry, written last. -/
def Obligations.AddRegSetsCarry : Prop :=
  ∀ (x y : Nibble) (s : State),
    decodeWord (formatXYN 0x8 x y 0x4) = .instr (.addReg x y) ∧
    ∃ t, exec (.addReg x y) s = .next t ∧
      (x ≠ 0xF → (t.getV x).toNat = ((s.getV x).toNat + (s.getV y).toNat) % 256) ∧
      t.getV 0xF = (if (s.getV x).toNat + (s.getV y).toNat > 255 then 1 else 0) ∧
      WritesOnlyV [x, 0xF] s t

/-- SUB Vx, Vy and SUBN Vx, Vy (R137, R139): VF is 1 exactly when there is no borrow, written last. -/
def Obligations.SubtractsSetNoBorrow : Prop :=
  ∀ (x y : Nibble) (s : State),
    decodeWord (formatXYN 0x8 x y 0x5) = .instr (.sub x y) ∧
    decodeWord (formatXYN 0x8 x y 0x7) = .instr (.subn x y) ∧
    (∃ t, exec (.sub x y) s = .next t ∧
      (x ≠ 0xF → ((t.getV x).toNat : Int) = (((s.getV x).toNat : Int) - (s.getV y).toNat) % 256) ∧
      t.getV 0xF = (if (s.getV x).toNat ≥ (s.getV y).toNat then 1 else 0) ∧
      WritesOnlyV [x, 0xF] s t) ∧
    (∃ t, exec (.subn x y) s = .next t ∧
      (x ≠ 0xF → ((t.getV x).toNat : Int) = (((s.getV y).toNat : Int) - (s.getV x).toNat) % 256) ∧
      t.getV 0xF = (if (s.getV y).toNat ≥ (s.getV x).toNat then 1 else 0) ∧
      WritesOnlyV [x, 0xF] s t)

/-- SHR Vx and SHL Vx (R138, R140): VF is the bit shifted out, written first, so that at x = F the
shifted value stays; Vy has no part, whatever y is. -/
def Obligations.ShiftsKeepResultOverFlag : Prop :=
  ∀ (x y : Nibble) (s : State),
    decodeWord (formatXYN 0x8 x y 0x6) = .instr (.shr x y) ∧
    decodeWord (formatXYN 0x8 x y 0xE) = .instr (.shl x y) ∧
    (∃ t, exec (.shr x y) s = .next t ∧ (t.getV x).toNat = (s.getV x).toNat / 2 ∧
      (x ≠ 0xF → (t.getV 0xF).toNat = (s.getV x).toNat % 2) ∧ WritesOnlyV [x, 0xF] s t) ∧
    (∃ t, exec (.shl x y) s = .next t ∧ (t.getV x).toNat = 2 * (s.getV x).toNat % 256 ∧
      (x ≠ 0xF → (t.getV 0xF).toNat = (s.getV x).toNat / 128) ∧ WritesOnlyV [x, 0xF] s t) ∧
    ∀ y' : Nibble, exec (.shr x y') s = exec (.shr x y) s ∧ exec (.shl x y') s = exec (.shl x y) s

/-- RND Vx, kk (R141): a fresh draw, which is the next given byte or the free value of the next
count, ANDed with kk (log entry 6). -/
def Obligations.RndMasksAFreshDraw : Prop :=
  ∀ (x : Nibble) (kk : Byte) (s : State),
    decodeWord (formatXKK 0xC x kk) = .instr (.rnd x kk) ∧
    ∃ t r, exec (.rnd x kk) s = .next t ∧ t.getV x = r &&& kk ∧ KeepsV [x] s t ∧ SameMem s t ∧
      t = { s with v := t.v, inputs := t.inputs } ∧
      (∀ b rest, s.inputs.bytes = b :: rest → r = b ∧ t.inputs.bytes = rest) ∧
      (s.inputs.bytes = [] → r = Config.randByte s.inputs.clock ∧ t.inputs.bytes = []) ∧
      t.inputs.clock = s.inputs.clock + 1 ∧ t.inputs.agenda = s.inputs.agenda ∧
      t.inputs.keys = s.inputs.keys

/-! ## Index register and memory (43_index_memory) -/

/-- LD I, nnn and LD F, Vx (R150, R152). -/
def Obligations.LoadsOfIndexWriteI : Prop :=
  (∀ (nnn : Addr) (s : State), decodeWord (formatNNN 0xA nnn) = .instr (.ldI nnn) ∧
    ∃ t, exec (.ldI nnn) s = .next t ∧ t.i = nnn ∧ WritesOnlyI s t) ∧
  (∀ (x : Nibble) (s : State), decodeWord (formatXKK 0xF x 0x29) = .instr (.ldF x) ∧
    ∃ t, exec (.ldF x) s = .next t ∧ t.i.toNat = (s.getV x).toNat * 5 ∧ WritesOnlyI s t)

/-- ADD I, Vx (R151): the exact sum, or IndexOutOfRange with I unchanged; no flag. -/
def Obligations.AddIAddsOrFaults : Prop :=
  ∀ (x : Nibble) (s : State), decodeWord (formatXKK 0xF x 0x1E) = .instr (.addI x) ∧
    (s.i.toNat + (s.getV x).toNat < 4096 →
      ∃ t, exec (.addI x) s = .next t ∧ t.i.toNat = s.i.toNat + (s.getV x).toNat ∧ WritesOnlyI s t) ∧
    (4096 ≤ s.i.toNat + (s.getV x).toNat →
      ∃ t, exec (.addI x) s = .next t ∧
        TakesFault (.addI x) (.indexOutOfRange (s.i.toNat + (s.getV x).toNat)) s t ∧ t.i = s.i)

/-- LD B, Vx (R153): the three decimal digits from I up, nothing else; MemOutOfRange at the top of memory. -/
def Obligations.LdBStoresDecimalDigits : Prop :=
  ∀ (x : Nibble) (s : State), decodeWord (formatXKK 0xF x 0x33) = .instr (.ldB x) ∧
    (MemInv s → s.i.toNat + 2 < 4096 →
      ∃ t, exec (.ldB x) s = .next t ∧
        (t.byteAt (indexed s 0)).toNat = (s.getV x).toNat / 100 ∧
        (t.byteAt (indexed s 1)).toNat = (s.getV x).toNat / 10 % 10 ∧
        (t.byteAt (indexed s 2)).toNat = (s.getV x).toNat % 10 ∧
        (∀ a, a < indexed s 0 ∨ indexed s 2 < a → t.byteAt a = s.byteAt a) ∧
        t = { s with mem := t.mem }) ∧
    (4096 ≤ s.i.toNat + 2 →
      ∃ t, exec (.ldB x) s = .next t ∧ TakesFault (.ldB x) (.memOutOfRange 4096) s t ∧ t.i = s.i)

/-- LD [I], Vx (R154): V0..Vx from I up, nothing else; I moves past them; the two faults at the top
of memory leave I unchanged. -/
def Obligations.LdMemVxStoresRegisters : Prop :=
  ∀ (x : Nibble) (s : State), decodeWord (formatXKK 0xF x 0x55) = .instr (.ldMemVx x) ∧
    (MemInv s → s.i.toNat + x.toNat + 1 < 4096 →
      ∃ t, exec (.ldMemVx x) s = .next t ∧
        (∀ r : Nibble, r.toNat ≤ x.toNat → t.byteAt (indexed s r.toNat) = s.getV r) ∧
        (∀ a, a < indexed s 0 ∨ indexed s x.toNat < a → t.byteAt a = s.byteAt a) ∧
        t.i.toNat = s.i.toNat + x.toNat + 1 ∧ t = { s with mem := t.mem, i := t.i }) ∧
    (4096 ≤ s.i.toNat + x.toNat →
      ∃ t, exec (.ldMemVx x) s = .next t ∧ TakesFault (.ldMemVx x) (.memOutOfRange 4096) s t ∧
        t.i = s.i) ∧
    (s.i.toNat + x.toNat = 4095 →
      ∃ t, exec (.ldMemVx x) s = .next t ∧ TakesFault (.ldMemVx x) (.indexOutOfRange 4096) s t ∧
        t.i = s.i)

/-- LD Vx, [I] (R155): V0..Vx from I up; I moves past them; memory stays; the two faults at the top
of memory leave I unchanged. -/
def Obligations.LdVxMemLoadsRegisters : Prop :=
  ∀ (x : Nibble) (s : State), decodeWord (formatXKK 0xF x 0x65) = .instr (.ldVxMem x) ∧
    (s.i.toNat + x.toNat + 1 < 4096 →
      ∃ t, exec (.ldVxMem x) s = .next t ∧
        (∀ r : Nibble, r.toNat ≤ x.toNat → t.getV r = s.byteAt (indexed s r.toNat)) ∧
        (∀ r : Nibble, x.toNat < r.toNat → t.getV r = s.getV r) ∧
        t.i.toNat = s.i.toNat + x.toNat + 1 ∧ t = { s with v := t.v, i := t.i } ∧ SameMem s t) ∧
    (4096 ≤ s.i.toNat + x.toNat →
      ∃ t, exec (.ldVxMem x) s = .next t ∧ TakesFault (.ldVxMem x) (.memOutOfRange 4096) s t ∧
        t.i = s.i) ∧
    (s.i.toNat + x.toNat = 4095 →
      ∃ t, exec (.ldVxMem x) s = .next t ∧ TakesFault (.ldVxMem x) (.indexOutOfRange 4096) s t ∧
        t.i = s.i)

/-- Storing V0..Vx and loading them back from the same I, in any state with that memory, restores
them and moves I alike (R154, R155; 95 S10). -/
def Obligations.LoadRestoresStoredRegisters : Prop :=
  ∀ (x : Nibble) (s : State), MemInv s → s.i.toNat + x.toNat + 1 < 4096 →
    ∃ t, exec (.ldMemVx x) s = .next t ∧
      ∀ u : State, u.mem = t.mem → u.i = s.i →
        ∃ w, exec (.ldVxMem x) u = .next w ∧ w.i = t.i ∧
          ∀ r : Nibble, r.toNat ≤ x.toNat → w.getV r = s.getV r

/-! ## The framebuffer engine (44_display) -/

/-- CLS (R174, R175): Disp all off, FB all off exactly when CLS_CLEARS_FB, dirty and VF unchanged; the
cycle's snapshot is all off. -/
def Obligations.ClsClearsDisplay : Prop :=
  decodeWord 0x00E0 = .instr .cls ∧
  ∀ s : State, ∃ t, exec .cls s = .next t ∧
    (∀ px py, t.disp.get px py = false) ∧
    (s.params.clsClearsFb = true → ∀ px py, t.fb.get px py = false) ∧
    (s.params.clsClearsFb = false → t.fb = s.fb) ∧
    t = { s with disp := t.disp, fb := t.fb } ∧ SameMem s t ∧
    (s.mode = .run → strictFailure t = none → ∀ at_ op, (endCycle at_ op t).out = some t.disp)

/-- DRW Vx, Vy, n (R176, R177): FB becomes FB XOR the wrapped sprite image, VF is 1 exactly when the
two shared an on pixel, Disp copies FB (also with n = 0, as the pseudocode has it: log entry 22), dirty
is set exactly if Disp differed; MemOutOfRange at the first row past memory. -/
def Obligations.DrwXorsSpriteImage : Prop :=
  ∀ (x y n : Nibble) (s : State), decodeWord (formatXYN 0xD x y n) = .instr (.drw x y n) ∧
    (indexed s n.toNat ≤ 4096 →
      ∃ t, exec (.drw x y n) s = .next t ∧
        (∀ px py, px < 64 → py < 32 →
          t.fb.get px py = (s.fb.get px py ^^ spriteCovers s x y n px py)) ∧
        ((∃ px py, px < 64 ∧ py < 32 ∧ s.fb.get px py = true ∧ spriteCovers s x y n px py = true) →
          t.getV 0xF = 1) ∧
        ((¬∃ px py, px < 64 ∧ py < 32 ∧ s.fb.get px py = true ∧ spriteCovers s x y n px py = true) →
          t.getV 0xF = 0) ∧
        KeepsV [0xF] s t ∧ t.disp = t.fb ∧ (s.disp ≠ t.fb → t.dirty = true) ∧
        (s.disp = t.fb → t.dirty = s.dirty) ∧
        t = { s with v := t.v, fb := t.fb, disp := t.disp, dirty := t.dirty } ∧ SameMem s t) ∧
    (4096 < indexed s n.toNat →
      ∃ t, exec (.drw x y n) s = .next t ∧ TakesFault (.drw x y n) (.memOutOfRange 4096) s t ∧
        t.disp = s.disp)

/-- Drawing the same sprite twice at the same place restores FB, and the second draw sets VF exactly if
the sprite covers a pixel that was off before the first (R177); so it does whenever the sprite has a 1
bit and the first draw did not collide, which is what R177 gives of R178 (log entry 19). -/
def Obligations.SecondDrawRestoresFramebuffer : Prop :=
  ∀ (x y n : Nibble) (s : State), indexed s n.toNat ≤ 4096 →
    ∃ t, exec (.drw x y n) s = .next t ∧
      ∀ u : State, u.fb = t.fb → u.i = s.i → SameMem s u → u.getV x = s.getV x → u.getV y = s.getV y →
        ∃ w, exec (.drw x y n) u = .next w ∧ w.fb = s.fb ∧
          ((∃ px py, px < 64 ∧ py < 32 ∧ s.fb.get px py = false ∧ spriteCovers s x y n px py = true) →
            w.getV 0xF = 1) ∧
          ((¬∃ px py, px < 64 ∧ py < 32 ∧ s.fb.get px py = false ∧ spriteCovers s x y n px py = true) →
            w.getV 0xF = 0) ∧
          ((∃ row bit, row < n.toNat ∧ bit < 8 ∧ spriteBit (s.byteAt (indexed s row)) bit = true) →
            t.getV 0xF = 0 → w.getV 0xF = 1)

/-! ## Keys and timers (45_keys_timers) -/

/-- SKP Vx and SKNP Vx (R190, R191): the skip by the key-down input drawn at the read (log entry 7), or
KeyOutOfRange. -/
def Obligations.KeySkipsReadTheInput : Prop :=
  ∀ (x : Nibble) (s : State),
    decodeWord (formatXKK 0xE x 0x9E) = .instr (.skp x) ∧
    decodeWord (formatXKK 0xE x 0xA1) = .instr (.sknp x) ∧
    (∀ k : Nibble, (s.getV x).toNat = k.toNat →
      (s.nextKey k = true → exec (.skp x) s = .next { s.takeKey with pc := s.pc + 2 } ∧
        exec (.sknp x) s = .next s.takeKey) ∧
      (s.nextKey k = false → exec (.skp x) s = .next s.takeKey ∧
        exec (.sknp x) s = .next { s.takeKey with pc := s.pc + 2 }) ∧
      (∀ b rest, s.inputs.keys = b :: rest → s.nextKey k = b ∧ s.takeKey.inputs.keys = rest) ∧
      (s.inputs.keys = [] →
        s.nextKey k = Config.keyDown s.inputs.clock k ∧ s.takeKey.inputs.keys = [])) ∧
    (s.takeKey = { s with inputs := s.takeKey.inputs } ∧
      s.takeKey.inputs.clock = s.inputs.clock + 1 ∧
      s.takeKey.inputs.agenda = s.inputs.agenda ∧ s.takeKey.inputs.bytes = s.inputs.bytes) ∧
    (15 < (s.getV x).toNat →
      (∃ t, exec (.skp x) s = .next t ∧ TakesFault (.skp x) (.keyOutOfRange (s.getV x)) s t ∧
        t.pc = s.pc) ∧
      (∃ t, exec (.sknp x) s = .next t ∧ TakesFault (.sknp x) (.keyOutOfRange (s.getV x)) s t ∧
        t.pc = s.pc))

/-- LD Vx, DT; LD DT, Vx; LD ST, Vx (R192, R194, R195). -/
def Obligations.TimerTransfersCopyCounters : Prop :=
  ∀ (x : Nibble) (s : State),
    decodeWord (formatXKK 0xF x 0x07) = .instr (.ldVxDt x) ∧
    decodeWord (formatXKK 0xF x 0x15) = .instr (.ldDtVx x) ∧
    decodeWord (formatXKK 0xF x 0x18) = .instr (.ldStVx x) ∧
    (∃ t, exec (.ldVxDt x) s = .next t ∧ t.getV x = s.dt ∧ WritesOnlyV [x] s t) ∧
    exec (.ldDtVx x) s = .next { s with dt := s.getV x } ∧
    exec (.ldStVx x) s = .next { s with st := s.getV x }

/-- LD Vx, K (R193): a recorded key at once, `pressed` unchanged; without one the core waits in AwaitKey(x). -/
def Obligations.LdVxKTakesKeyOrWaits : Prop :=
  ∀ (x : Nibble) (s : State), decodeWord (formatXKK 0xF x 0x0A) = .instr (.ldVxK x) ∧
    (∀ k, s.pressed = some k →
      ∃ t, exec (.ldVxK x) s = .next t ∧ (t.getV x).toNat = k.toNat ∧ WritesOnlyV [x] s t) ∧
    (s.pressed = none → exec (.ldVxK x) s = .next { s with mode := .awaitKey x })
end

