-- ==== Sys2Proof/Laws/Decode.lean ====
section
/-! SUPPORT. Words as numbers: the formats, the fields, and the fields of the formats (30_encoding R71, R72). -/

namespace Sys2Proof

theorem toNat_append_add {n m : Nat} (a : BitVec n) (b : BitVec m) :
    (a ++ b).toNat = a.toNat * 2 ^ m + b.toNat := by
  rw [BitVec.toNat_append, ← Nat.shiftLeft_add_eq_or_of_lt b.isLt, Nat.shiftLeft_eq]
theorem formatNNN_toNat (op : Nibble) (nnn : Addr) : (formatNNN op nnn).toNat = op.toNat * 4096 + nnn.toNat :=
  toNat_append_add op nnn
theorem formatXKK_toNat (op x : Nibble) (kk : Byte) :
    (formatXKK op x kk).toNat = op.toNat * 4096 + x.toNat * 256 + kk.toNat := by
  have h1 : (formatXKK op x kk).toNat = (op ++ x : BitVec 8).toNat * 256 + kk.toNat :=
    toNat_append_add (op ++ x : BitVec 8) kk
  have h2 : (op ++ x : BitVec 8).toNat = op.toNat * 16 + x.toNat := toNat_append_add op x
  rw [h1, h2]
  omega
theorem formatXYN_toNat (op x y n : Nibble) :
    (formatXYN op x y n).toNat = op.toNat * 4096 + x.toNat * 256 + y.toNat * 16 + n.toNat := by
  have h1 : (formatXYN op x y n).toNat = (op ++ x : BitVec 8).toNat * 256 + (y ++ n : BitVec 8).toNat :=
    toNat_append_add (op ++ x : BitVec 8) (y ++ n : BitVec 8)
  have h2 : (op ++ x : BitVec 8).toNat = op.toNat * 16 + x.toNat := toNat_append_add op x
  have h3 : (y ++ n : BitVec 8).toNat = y.toNat * 16 + n.toNat := toNat_append_add y n
  rw [h1, h2, h3]
  omega
theorem fieldFamily_toNat (w : Word) : (fieldFamily w).toNat = w.toNat / 4096 % 16 := by
  simp [fieldFamily, Nat.shiftRight_eq_div_pow]
theorem fieldX_toNat (w : Word) : (fieldX w).toNat = w.toNat / 256 % 16 := by
  simp [fieldX, Nat.shiftRight_eq_div_pow]
theorem fieldY_toNat (w : Word) : (fieldY w).toNat = w.toNat / 16 % 16 := by
  simp [fieldY, Nat.shiftRight_eq_div_pow]
theorem fieldN_toNat (w : Word) : (fieldN w).toNat = w.toNat % 16 := by
  simp [fieldN, Nat.shiftRight_eq_div_pow]
theorem fieldKk_toNat (w : Word) : (fieldKk w).toNat = w.toNat % 256 := by
  simp [fieldKk, Nat.shiftRight_eq_div_pow]
theorem fieldNnn_toNat (w : Word) : (fieldNnn w).toNat = w.toNat % 4096 := by
  simp [fieldNnn, Nat.shiftRight_eq_div_pow]

@[simp] theorem fieldX_XYN (op x y n : Nibble) : fieldX (formatXYN op x y n) = x := by
  apply BitVec.eq_of_toNat_eq; rw [fieldX_toNat, formatXYN_toNat]; omega
@[simp] theorem fieldY_XYN (op x y n : Nibble) : fieldY (formatXYN op x y n) = y := by
  apply BitVec.eq_of_toNat_eq; rw [fieldY_toNat, formatXYN_toNat]; omega
@[simp] theorem fieldN_XYN (op x y n : Nibble) : fieldN (formatXYN op x y n) = n := by
  apply BitVec.eq_of_toNat_eq; rw [fieldN_toNat, formatXYN_toNat]; omega
@[simp] theorem fieldFamily_XYN (op x y n : Nibble) : fieldFamily (formatXYN op x y n) = op := by
  apply BitVec.eq_of_toNat_eq; rw [fieldFamily_toNat, formatXYN_toNat]; omega
@[simp] theorem fieldX_XKK (op x : Nibble) (kk : Byte) : fieldX (formatXKK op x kk) = x := by
  apply BitVec.eq_of_toNat_eq; rw [fieldX_toNat, formatXKK_toNat]; omega
@[simp] theorem fieldKk_XKK (op x : Nibble) (kk : Byte) : fieldKk (formatXKK op x kk) = kk := by
  apply BitVec.eq_of_toNat_eq; rw [fieldKk_toNat, formatXKK_toNat]; omega
@[simp] theorem fieldFamily_XKK (op x : Nibble) (kk : Byte) : fieldFamily (formatXKK op x kk) = op := by
  apply BitVec.eq_of_toNat_eq; rw [fieldFamily_toNat, formatXKK_toNat]; omega
@[simp] theorem fieldNnn_NNN (op : Nibble) (nnn : Addr) : fieldNnn (formatNNN op nnn) = nnn := by
  apply BitVec.eq_of_toNat_eq; rw [fieldNnn_toNat, formatNNN_toNat]; omega
@[simp] theorem fieldFamily_NNN (op : Nibble) (nnn : Addr) : fieldFamily (formatNNN op nnn) = op := by
  apply BitVec.eq_of_toNat_eq; rw [fieldFamily_toNat, formatNNN_toNat]; omega

/-- A word's bytes in memory order are that word again (20_memory R54). -/
@[simp] theorem wordOfBytes_bytesOfWord (w : Word) : wordOfBytes (w.extractLsb' 8 8) (w.extractLsb' 0 8) = w := by
  apply BitVec.eq_of_toNat_eq
  have := toNat_append_add (w.extractLsb' 8 8) (w.extractLsb' 0 8)
  simp [Nat.shiftRight_eq_div_pow] at this
  unfold wordOfBytes
  have h := w.isLt
  simp at *
  omega

theorem and_mask_family (w : Word) : (w &&& 0xF000#16).toNat = w.toNat / 4096 * 4096 := by
  have h : w &&& 0xF000#16 = (w >>> 12) <<< 12 := by
    ext i hi
    interval_cases i <;> simp
  rw [h]
  have := w.isLt
  simp [Nat.shiftRight_eq_div_pow, Nat.shiftLeft_eq]
  omega
theorem toNat_shift_or (w : Word) (b : Word) (hb : b.toNat < 2 ^ 12) :
    (((w >>> 12) <<< 12) ||| b).toNat = w.toNat / 4096 * 4096 + b.toNat := by
  have hw := w.isLt
  have h : ((w >>> 12) <<< 12).toNat = (w.toNat / 4096) <<< 12 := by
    simp [Nat.shiftRight_eq_div_pow, Nat.shiftLeft_eq]
    omega
  rw [BitVec.toNat_or, h, ← Nat.shiftLeft_add_eq_or_of_lt hb, Nat.shiftLeft_eq]
theorem and_mask_function (w : Word) : (w &&& 0xF00F#16).toNat = w.toNat / 4096 * 4096 + w.toNat % 16 := by
  have h : w &&& 0xF00F#16 = ((w >>> 12) <<< 12) ||| (w &&& 0xF#16) := by
    ext i hi
    interval_cases i <;> simp
  have hl : (w &&& 0xF#16).toNat = w.toNat % 16 := by
    rw [BitVec.toNat_and]; exact Nat.and_two_pow_sub_one_eq_mod _ 4
  rw [h, toNat_shift_or _ _ (by omega), hl]
theorem and_mask_byte (w : Word) : (w &&& 0xF0FF#16).toNat = w.toNat / 4096 * 4096 + w.toNat % 256 := by
  have h : w &&& 0xF0FF#16 = ((w >>> 12) <<< 12) ||| (w &&& 0xFF#16) := by
    ext i hi
    interval_cases i <;> simp
  have hl : (w &&& 0xFF#16).toNat = w.toNat % 256 := by
    rw [BitVec.toNat_and]; exact Nat.and_two_pow_sub_one_eq_mod _ 8
  rw [h, toNat_shift_or _ _ (by omega), hl]
/-- A row that fixes the family nibble alone (30_encoding R75). -/
theorem rowMatches_family (m w : Word) :
    rowMatches (0xF000, m) w = true ↔ w.toNat / 4096 * 4096 = m.toNat := by
  rw [← and_mask_family]
  simp only [rowMatches, beq_iff_eq]
  exact ⟨fun h => by rw [← h]; rfl, fun h => BitVec.eq_of_toNat_eq h⟩

/-- A row that fixes the family and function nibbles (30_encoding R75). -/
theorem rowMatches_function (m w : Word) :
    rowMatches (0xF00F, m) w = true ↔ w.toNat / 4096 * 4096 + w.toNat % 16 = m.toNat := by
  rw [← and_mask_function]
  simp only [rowMatches, beq_iff_eq]
  exact ⟨fun h => by rw [← h]; rfl, fun h => BitVec.eq_of_toNat_eq h⟩

/-- A row that fixes the family nibble and the low byte (30_encoding R75). -/
theorem rowMatches_byte (m w : Word) :
    rowMatches (0xF0FF, m) w = true ↔ w.toNat / 4096 * 4096 + w.toNat % 256 = m.toNat := by
  rw [← and_mask_byte]
  simp only [rowMatches, beq_iff_eq]
  exact ⟨fun h => by rw [← h]; rfl, fun h => BitVec.eq_of_toNat_eq h⟩

/-- A row that fixes the whole word (30_encoding R75). -/
theorem rowMatches_fixed (m w : Word) : rowMatches (0xFFFF, m) w = true ↔ w = m := by
  have h : w &&& 0xFFFF#16 = w := by
    ext i hi
    interval_cases i <;> simp
  simp only [rowMatches, beq_iff_eq]
  exact ⟨fun e => h.symm.trans e, fun e => h.trans e⟩

end Sys2Proof
end

