-- ==== Sys2Proof/Laws/State.lean ====
section
/-! SUPPORT. The small lemmas of State: one per field per update, true by unfolding the update. -/

namespace Sys2Proof.Machine

variable (s : State)

@[simp] theorem setV_v (x : Nibble) (b : Byte) : (s.setV x b).v = s.v.set x.toNat b x.isLt := rfl
@[simp] theorem setV_i (x : Nibble) (b : Byte) : (s.setV x b).i = s.i := rfl
@[simp] theorem setV_pc (x : Nibble) (b : Byte) : (s.setV x b).pc = s.pc := rfl
@[simp] theorem setV_stack (x : Nibble) (b : Byte) : (s.setV x b).stack = s.stack := rfl
@[simp] theorem setV_mode (x : Nibble) (b : Byte) : (s.setV x b).mode = s.mode := rfl
@[simp] theorem setV_fault (x : Nibble) (b : Byte) : (s.setV x b).fault = s.fault := rfl
@[simp] theorem setV_mem (x : Nibble) (b : Byte) : (s.setV x b).mem = s.mem := rfl
@[simp] theorem setV_fb (x : Nibble) (b : Byte) : (s.setV x b).fb = s.fb := rfl
@[simp] theorem setV_disp (x : Nibble) (b : Byte) : (s.setV x b).disp = s.disp := rfl
@[simp] theorem setV_dirty (x : Nibble) (b : Byte) : (s.setV x b).dirty = s.dirty := rfl
@[simp] theorem setV_out (x : Nibble) (b : Byte) : (s.setV x b).out = s.out := rfl
@[simp] theorem setV_dt (x : Nibble) (b : Byte) : (s.setV x b).dt = s.dt := rfl
@[simp] theorem setV_st (x : Nibble) (b : Byte) : (s.setV x b).st = s.st := rfl
@[simp] theorem setV_running (x : Nibble) (b : Byte) : (s.setV x b).running = s.running := rfl
@[simp] theorem setV_pressed (x : Nibble) (b : Byte) : (s.setV x b).pressed = s.pressed := rfl
@[simp] theorem setV_params (x : Nibble) (b : Byte) : (s.setV x b).params = s.params := rfl
@[simp] theorem setV_inputs (x : Nibble) (b : Byte) : (s.setV x b).inputs = s.inputs := rfl

@[simp] theorem setPc_v (a : Word) : (s.setPc a).v = s.v := rfl
@[simp] theorem setPc_i (a : Word) : (s.setPc a).i = s.i := rfl
@[simp] theorem setPc_pc (a : Word) : (s.setPc a).pc = a := rfl
@[simp] theorem setPc_stack (a : Word) : (s.setPc a).stack = s.stack := rfl
@[simp] theorem setPc_mode (a : Word) : (s.setPc a).mode = s.mode := rfl
@[simp] theorem setPc_fault (a : Word) : (s.setPc a).fault = s.fault := rfl
@[simp] theorem setPc_mem (a : Word) : (s.setPc a).mem = s.mem := rfl
@[simp] theorem setPc_fb (a : Word) : (s.setPc a).fb = s.fb := rfl
@[simp] theorem setPc_disp (a : Word) : (s.setPc a).disp = s.disp := rfl
@[simp] theorem setPc_dirty (a : Word) : (s.setPc a).dirty = s.dirty := rfl
@[simp] theorem setPc_out (a : Word) : (s.setPc a).out = s.out := rfl
@[simp] theorem setPc_dt (a : Word) : (s.setPc a).dt = s.dt := rfl
@[simp] theorem setPc_st (a : Word) : (s.setPc a).st = s.st := rfl
@[simp] theorem setPc_running (a : Word) : (s.setPc a).running = s.running := rfl
@[simp] theorem setPc_pressed (a : Word) : (s.setPc a).pressed = s.pressed := rfl
@[simp] theorem setPc_params (a : Word) : (s.setPc a).params = s.params := rfl
@[simp] theorem setPc_inputs (a : Word) : (s.setPc a).inputs = s.inputs := rfl

@[simp] theorem setMode_v (m : Mode) : (s.setMode m).v = s.v := rfl
@[simp] theorem setMode_i (m : Mode) : (s.setMode m).i = s.i := rfl
@[simp] theorem setMode_pc (m : Mode) : (s.setMode m).pc = s.pc := rfl
@[simp] theorem setMode_stack (m : Mode) : (s.setMode m).stack = s.stack := rfl
@[simp] theorem setMode_mode (m : Mode) : (s.setMode m).mode = m := rfl
@[simp] theorem setMode_fault (m : Mode) : (s.setMode m).fault = s.fault := rfl
@[simp] theorem setMode_mem (m : Mode) : (s.setMode m).mem = s.mem := rfl
@[simp] theorem setMode_fb (m : Mode) : (s.setMode m).fb = s.fb := rfl
@[simp] theorem setMode_disp (m : Mode) : (s.setMode m).disp = s.disp := rfl
@[simp] theorem setMode_dirty (m : Mode) : (s.setMode m).dirty = s.dirty := rfl
@[simp] theorem setMode_out (m : Mode) : (s.setMode m).out = s.out := rfl
@[simp] theorem setMode_dt (m : Mode) : (s.setMode m).dt = s.dt := rfl
@[simp] theorem setMode_st (m : Mode) : (s.setMode m).st = s.st := rfl
@[simp] theorem setMode_running (m : Mode) : (s.setMode m).running = s.running := rfl
@[simp] theorem setMode_pressed (m : Mode) : (s.setMode m).pressed = s.pressed := rfl
@[simp] theorem setMode_params (m : Mode) : (s.setMode m).params = s.params := rfl
@[simp] theorem setMode_inputs (m : Mode) : (s.setMode m).inputs = s.inputs := rfl

@[simp] theorem setI_v (a : Addr) : (s.setI a).v = s.v := rfl
@[simp] theorem setI_i (a : Addr) : (s.setI a).i = a := rfl
@[simp] theorem setI_pc (a : Addr) : (s.setI a).pc = s.pc := rfl
@[simp] theorem setI_stack (a : Addr) : (s.setI a).stack = s.stack := rfl
@[simp] theorem setI_mode (a : Addr) : (s.setI a).mode = s.mode := rfl
@[simp] theorem setI_fault (a : Addr) : (s.setI a).fault = s.fault := rfl
@[simp] theorem setI_mem (a : Addr) : (s.setI a).mem = s.mem := rfl
@[simp] theorem setI_fb (a : Addr) : (s.setI a).fb = s.fb := rfl
@[simp] theorem setI_disp (a : Addr) : (s.setI a).disp = s.disp := rfl
@[simp] theorem setI_dirty (a : Addr) : (s.setI a).dirty = s.dirty := rfl
@[simp] theorem setI_out (a : Addr) : (s.setI a).out = s.out := rfl
@[simp] theorem setI_dt (a : Addr) : (s.setI a).dt = s.dt := rfl
@[simp] theorem setI_st (a : Addr) : (s.setI a).st = s.st := rfl
@[simp] theorem setI_running (a : Addr) : (s.setI a).running = s.running := rfl
@[simp] theorem setI_pressed (a : Addr) : (s.setI a).pressed = s.pressed := rfl
@[simp] theorem setI_params (a : Addr) : (s.setI a).params = s.params := rfl
@[simp] theorem setI_inputs (a : Addr) : (s.setI a).inputs = s.inputs := rfl

@[simp] theorem advance_v : (advance s).v = s.v := rfl
@[simp] theorem advance_i : (advance s).i = s.i := rfl
@[simp] theorem advance_pc : (advance s).pc = s.pc + 2 := rfl
@[simp] theorem advance_stack : (advance s).stack = s.stack := rfl
@[simp] theorem advance_mode : (advance s).mode = s.mode := rfl
@[simp] theorem advance_fault : (advance s).fault = s.fault := rfl
@[simp] theorem advance_mem : (advance s).mem = s.mem := rfl
@[simp] theorem advance_fb : (advance s).fb = s.fb := rfl
@[simp] theorem advance_disp : (advance s).disp = s.disp := rfl
@[simp] theorem advance_dirty : (advance s).dirty = s.dirty := rfl
@[simp] theorem advance_out : (advance s).out = s.out := rfl
@[simp] theorem advance_dt : (advance s).dt = s.dt := rfl
@[simp] theorem advance_st : (advance s).st = s.st := rfl
@[simp] theorem advance_running : (advance s).running = s.running := rfl
@[simp] theorem advance_pressed : (advance s).pressed = s.pressed := rfl
@[simp] theorem advance_params : (advance s).params = s.params := rfl
@[simp] theorem advance_inputs : (advance s).inputs = s.inputs := rfl

@[simp] theorem skip_v : (skip s).v = s.v := rfl
@[simp] theorem skip_i : (skip s).i = s.i := rfl
@[simp] theorem skip_pc : (skip s).pc = s.pc + 2 := rfl
@[simp] theorem skip_stack : (skip s).stack = s.stack := rfl
@[simp] theorem skip_mode : (skip s).mode = s.mode := rfl
@[simp] theorem skip_fault : (skip s).fault = s.fault := rfl
@[simp] theorem skip_mem : (skip s).mem = s.mem := rfl
@[simp] theorem skip_fb : (skip s).fb = s.fb := rfl
@[simp] theorem skip_disp : (skip s).disp = s.disp := rfl
@[simp] theorem skip_dirty : (skip s).dirty = s.dirty := rfl
@[simp] theorem skip_out : (skip s).out = s.out := rfl
@[simp] theorem skip_dt : (skip s).dt = s.dt := rfl
@[simp] theorem skip_st : (skip s).st = s.st := rfl
@[simp] theorem skip_running : (skip s).running = s.running := rfl
@[simp] theorem skip_pressed : (skip s).pressed = s.pressed := rfl
@[simp] theorem skip_params : (skip s).params = s.params := rfl
@[simp] theorem skip_inputs : (skip s).inputs = s.inputs := rfl

@[simp] theorem takeTurn_v : s.takeTurn.v = s.v := rfl
@[simp] theorem takeTurn_i : s.takeTurn.i = s.i := rfl
@[simp] theorem takeTurn_pc : s.takeTurn.pc = s.pc := rfl
@[simp] theorem takeTurn_stack : s.takeTurn.stack = s.stack := rfl
@[simp] theorem takeTurn_mode : s.takeTurn.mode = s.mode := rfl
@[simp] theorem takeTurn_fault : s.takeTurn.fault = s.fault := rfl
@[simp] theorem takeTurn_mem : s.takeTurn.mem = s.mem := rfl
@[simp] theorem takeTurn_fb : s.takeTurn.fb = s.fb := rfl
@[simp] theorem takeTurn_disp : s.takeTurn.disp = s.disp := rfl
@[simp] theorem takeTurn_dirty : s.takeTurn.dirty = s.dirty := rfl
@[simp] theorem takeTurn_out : s.takeTurn.out = s.out := rfl
@[simp] theorem takeTurn_dt : s.takeTurn.dt = s.dt := rfl
@[simp] theorem takeTurn_st : s.takeTurn.st = s.st := rfl
@[simp] theorem takeTurn_running : s.takeTurn.running = s.running := rfl
@[simp] theorem takeTurn_pressed : s.takeTurn.pressed = s.pressed := rfl
@[simp] theorem takeTurn_params : s.takeTurn.params = s.params := rfl

@[simp] theorem takeByte_v : s.takeByte.v = s.v := rfl
@[simp] theorem takeByte_i : s.takeByte.i = s.i := rfl
@[simp] theorem takeByte_pc : s.takeByte.pc = s.pc := rfl
@[simp] theorem takeByte_stack : s.takeByte.stack = s.stack := rfl
@[simp] theorem takeByte_mode : s.takeByte.mode = s.mode := rfl
@[simp] theorem takeByte_fault : s.takeByte.fault = s.fault := rfl
@[simp] theorem takeByte_mem : s.takeByte.mem = s.mem := rfl
@[simp] theorem takeByte_fb : s.takeByte.fb = s.fb := rfl
@[simp] theorem takeByte_disp : s.takeByte.disp = s.disp := rfl
@[simp] theorem takeByte_dirty : s.takeByte.dirty = s.dirty := rfl
@[simp] theorem takeByte_out : s.takeByte.out = s.out := rfl
@[simp] theorem takeByte_dt : s.takeByte.dt = s.dt := rfl
@[simp] theorem takeByte_st : s.takeByte.st = s.st := rfl
@[simp] theorem takeByte_running : s.takeByte.running = s.running := rfl
@[simp] theorem takeByte_pressed : s.takeByte.pressed = s.pressed := rfl
@[simp] theorem takeByte_params : s.takeByte.params = s.params := rfl

@[simp] theorem takeKey_v : s.takeKey.v = s.v := rfl
@[simp] theorem takeKey_i : s.takeKey.i = s.i := rfl
@[simp] theorem takeKey_pc : s.takeKey.pc = s.pc := rfl
@[simp] theorem takeKey_stack : s.takeKey.stack = s.stack := rfl
@[simp] theorem takeKey_mode : s.takeKey.mode = s.mode := rfl
@[simp] theorem takeKey_fault : s.takeKey.fault = s.fault := rfl
@[simp] theorem takeKey_mem : s.takeKey.mem = s.mem := rfl
@[simp] theorem takeKey_fb : s.takeKey.fb = s.fb := rfl
@[simp] theorem takeKey_disp : s.takeKey.disp = s.disp := rfl
@[simp] theorem takeKey_dirty : s.takeKey.dirty = s.dirty := rfl
@[simp] theorem takeKey_out : s.takeKey.out = s.out := rfl
@[simp] theorem takeKey_dt : s.takeKey.dt = s.dt := rfl
@[simp] theorem takeKey_st : s.takeKey.st = s.st := rfl
@[simp] theorem takeKey_running : s.takeKey.running = s.running := rfl
@[simp] theorem takeKey_pressed : s.takeKey.pressed = s.pressed := rfl
@[simp] theorem takeKey_params : s.takeKey.params = s.params := rfl

@[simp] theorem takeFault_v (f : Fault) (a : Word) (op : Option Word) : (takeFault f a op s).v = s.v := rfl
@[simp] theorem takeFault_i (f : Fault) (a : Word) (op : Option Word) : (takeFault f a op s).i = s.i := rfl
@[simp] theorem takeFault_pc (f : Fault) (a : Word) (op : Option Word) : (takeFault f a op s).pc = s.pc := rfl
@[simp] theorem takeFault_stack (f : Fault) (a : Word) (op : Option Word) : (takeFault f a op s).stack = s.stack := rfl
@[simp] theorem takeFault_mode (f : Fault) (a : Word) (op : Option Word) : (takeFault f a op s).mode = .faulted := rfl
@[simp] theorem takeFault_fault (f : Fault) (a : Word) (op : Option Word) : (takeFault f a op s).fault = some { fault := f, addr := a, op := op } := rfl
@[simp] theorem takeFault_mem (f : Fault) (a : Word) (op : Option Word) : (takeFault f a op s).mem = s.mem := rfl
@[simp] theorem takeFault_fb (f : Fault) (a : Word) (op : Option Word) : (takeFault f a op s).fb = s.fb := rfl
@[simp] theorem takeFault_disp (f : Fault) (a : Word) (op : Option Word) : (takeFault f a op s).disp = s.disp := rfl
@[simp] theorem takeFault_dirty (f : Fault) (a : Word) (op : Option Word) : (takeFault f a op s).dirty = s.dirty := rfl
@[simp] theorem takeFault_out (f : Fault) (a : Word) (op : Option Word) : (takeFault f a op s).out = s.out := rfl
@[simp] theorem takeFault_dt (f : Fault) (a : Word) (op : Option Word) : (takeFault f a op s).dt = s.dt := rfl
@[simp] theorem takeFault_st (f : Fault) (a : Word) (op : Option Word) : (takeFault f a op s).st = s.st := rfl
@[simp] theorem takeFault_running (f : Fault) (a : Word) (op : Option Word) : (takeFault f a op s).running = false := rfl
@[simp] theorem takeFault_pressed (f : Fault) (a : Word) (op : Option Word) : (takeFault f a op s).pressed = s.pressed := rfl
@[simp] theorem takeFault_params (f : Fault) (a : Word) (op : Option Word) : (takeFault f a op s).params = s.params := rfl
@[simp] theorem takeFault_inputs (f : Fault) (a : Word) (op : Option Word) : (takeFault f a op s).inputs = s.inputs := rfl

@[simp] theorem raiseIn_v (i : Instr) (f : Fault) : (raiseIn i f s).v = s.v := rfl
@[simp] theorem raiseIn_i (i : Instr) (f : Fault) : (raiseIn i f s).i = s.i := rfl
@[simp] theorem raiseIn_pc (i : Instr) (f : Fault) : (raiseIn i f s).pc = s.pc := rfl
@[simp] theorem raiseIn_stack (i : Instr) (f : Fault) : (raiseIn i f s).stack = s.stack := rfl
@[simp] theorem raiseIn_mode (i : Instr) (f : Fault) : (raiseIn i f s).mode = .faulted := rfl
@[simp] theorem raiseIn_fault (i : Instr) (f : Fault) : (raiseIn i f s).fault = some { fault := f, addr := s.pc - 2, op := some (encode i) } := rfl
@[simp] theorem raiseIn_mem (i : Instr) (f : Fault) : (raiseIn i f s).mem = s.mem := rfl
@[simp] theorem raiseIn_fb (i : Instr) (f : Fault) : (raiseIn i f s).fb = s.fb := rfl
@[simp] theorem raiseIn_disp (i : Instr) (f : Fault) : (raiseIn i f s).disp = s.disp := rfl
@[simp] theorem raiseIn_dirty (i : Instr) (f : Fault) : (raiseIn i f s).dirty = s.dirty := rfl
@[simp] theorem raiseIn_out (i : Instr) (f : Fault) : (raiseIn i f s).out = s.out := rfl
@[simp] theorem raiseIn_dt (i : Instr) (f : Fault) : (raiseIn i f s).dt = s.dt := rfl
@[simp] theorem raiseIn_st (i : Instr) (f : Fault) : (raiseIn i f s).st = s.st := rfl
@[simp] theorem raiseIn_running (i : Instr) (f : Fault) : (raiseIn i f s).running = false := rfl
@[simp] theorem raiseIn_pressed (i : Instr) (f : Fault) : (raiseIn i f s).pressed = s.pressed := rfl
@[simp] theorem raiseIn_params (i : Instr) (f : Fault) : (raiseIn i f s).params = s.params := rfl
@[simp] theorem raiseIn_inputs (i : Instr) (f : Fault) : (raiseIn i f s).inputs = s.inputs := rfl

@[simp] theorem displayUpdate_v : (displayUpdate s).v = s.v := rfl
@[simp] theorem displayUpdate_i : (displayUpdate s).i = s.i := rfl
@[simp] theorem displayUpdate_pc : (displayUpdate s).pc = s.pc := rfl
@[simp] theorem displayUpdate_stack : (displayUpdate s).stack = s.stack := rfl
@[simp] theorem displayUpdate_mode : (displayUpdate s).mode = s.mode := rfl
@[simp] theorem displayUpdate_fault : (displayUpdate s).fault = s.fault := rfl
@[simp] theorem displayUpdate_mem : (displayUpdate s).mem = s.mem := rfl
@[simp] theorem displayUpdate_fb : (displayUpdate s).fb = s.fb := rfl
@[simp] theorem displayUpdate_disp : (displayUpdate s).disp = s.fb := rfl
@[simp] theorem displayUpdate_dirty : (displayUpdate s).dirty = (s.dirty || decide (s.disp ≠ s.fb)) := rfl
@[simp] theorem displayUpdate_out : (displayUpdate s).out = s.out := rfl
@[simp] theorem displayUpdate_dt : (displayUpdate s).dt = s.dt := rfl
@[simp] theorem displayUpdate_st : (displayUpdate s).st = s.st := rfl
@[simp] theorem displayUpdate_running : (displayUpdate s).running = s.running := rfl
@[simp] theorem displayUpdate_pressed : (displayUpdate s).pressed = s.pressed := rfl
@[simp] theorem displayUpdate_params : (displayUpdate s).params = s.params := rfl
@[simp] theorem displayUpdate_inputs : (displayUpdate s).inputs = s.inputs := rfl

@[simp] theorem displayClear_v : (displayClear s).v = s.v := rfl
@[simp] theorem displayClear_i : (displayClear s).i = s.i := rfl
@[simp] theorem displayClear_pc : (displayClear s).pc = s.pc := rfl
@[simp] theorem displayClear_stack : (displayClear s).stack = s.stack := rfl
@[simp] theorem displayClear_mode : (displayClear s).mode = s.mode := rfl
@[simp] theorem displayClear_fault : (displayClear s).fault = s.fault := rfl
@[simp] theorem displayClear_mem : (displayClear s).mem = s.mem := rfl
@[simp] theorem displayClear_fb : (displayClear s).fb = s.fb := rfl
@[simp] theorem displayClear_disp : (displayClear s).disp = Grid.off := rfl
@[simp] theorem displayClear_dirty : (displayClear s).dirty = s.dirty := rfl
@[simp] theorem displayClear_out : (displayClear s).out = s.out := rfl
@[simp] theorem displayClear_dt : (displayClear s).dt = s.dt := rfl
@[simp] theorem displayClear_st : (displayClear s).st = s.st := rfl
@[simp] theorem displayClear_running : (displayClear s).running = s.running := rfl
@[simp] theorem displayClear_pressed : (displayClear s).pressed = s.pressed := rfl
@[simp] theorem displayClear_params : (displayClear s).params = s.params := rfl
@[simp] theorem displayClear_inputs : (displayClear s).inputs = s.inputs := rfl

@[simp] theorem publish_v : (publish s).v = s.v := rfl
@[simp] theorem publish_i : (publish s).i = s.i := rfl
@[simp] theorem publish_pc : (publish s).pc = s.pc := rfl
@[simp] theorem publish_stack : (publish s).stack = s.stack := rfl
@[simp] theorem publish_mode : (publish s).mode = s.mode := rfl
@[simp] theorem publish_fault : (publish s).fault = s.fault := rfl
@[simp] theorem publish_mem : (publish s).mem = s.mem := rfl
@[simp] theorem publish_fb : (publish s).fb = s.fb := rfl
@[simp] theorem publish_disp : (publish s).disp = s.disp := rfl
@[simp] theorem publish_dirty : (publish s).dirty = false := rfl
@[simp] theorem publish_out : (publish s).out = some s.disp := rfl
@[simp] theorem publish_dt : (publish s).dt = s.dt := rfl
@[simp] theorem publish_st : (publish s).st = s.st := rfl
@[simp] theorem publish_running : (publish s).running = s.running := rfl
@[simp] theorem publish_pressed : (publish s).pressed = s.pressed := rfl
@[simp] theorem publish_params : (publish s).params = s.params := rfl
@[simp] theorem publish_inputs : (publish s).inputs = s.inputs := rfl

@[simp] theorem stopCore_v : (stopCore s).v = s.v := rfl
@[simp] theorem stopCore_i : (stopCore s).i = s.i := rfl
@[simp] theorem stopCore_pc : (stopCore s).pc = s.pc := rfl
@[simp] theorem stopCore_stack : (stopCore s).stack = s.stack := rfl
@[simp] theorem stopCore_mode : (stopCore s).mode = .stopped := rfl
@[simp] theorem stopCore_fault : (stopCore s).fault = s.fault := rfl
@[simp] theorem stopCore_mem : (stopCore s).mem = s.mem := rfl
@[simp] theorem stopCore_fb : (stopCore s).fb = s.fb := rfl
@[simp] theorem stopCore_disp : (stopCore s).disp = s.disp := rfl
@[simp] theorem stopCore_dirty : (stopCore s).dirty = s.dirty := rfl
@[simp] theorem stopCore_out : (stopCore s).out = s.out := rfl
@[simp] theorem stopCore_dt : (stopCore s).dt = s.dt := rfl
@[simp] theorem stopCore_st : (stopCore s).st = s.st := rfl
@[simp] theorem stopCore_running : (stopCore s).running = s.running := rfl
@[simp] theorem stopCore_pressed : (stopCore s).pressed = s.pressed := rfl
@[simp] theorem stopCore_params : (stopCore s).params = s.params := rfl
@[simp] theorem stopCore_inputs : (stopCore s).inputs = s.inputs := rfl

@[simp] theorem hostStop_v : (hostStop s).v = s.v := rfl
@[simp] theorem hostStop_i : (hostStop s).i = s.i := rfl
@[simp] theorem hostStop_pc : (hostStop s).pc = s.pc := rfl
@[simp] theorem hostStop_stack : (hostStop s).stack = s.stack := rfl
@[simp] theorem hostStop_mode : (hostStop s).mode = s.mode := rfl
@[simp] theorem hostStop_fault : (hostStop s).fault = s.fault := rfl
@[simp] theorem hostStop_mem : (hostStop s).mem = s.mem := rfl
@[simp] theorem hostStop_fb : (hostStop s).fb = s.fb := rfl
@[simp] theorem hostStop_disp : (hostStop s).disp = s.disp := rfl
@[simp] theorem hostStop_dirty : (hostStop s).dirty = s.dirty := rfl
@[simp] theorem hostStop_out : (hostStop s).out = s.out := rfl
@[simp] theorem hostStop_dt : (hostStop s).dt = s.dt := rfl
@[simp] theorem hostStop_st : (hostStop s).st = s.st := rfl
@[simp] theorem hostStop_running : (hostStop s).running = false := rfl
@[simp] theorem hostStop_pressed : (hostStop s).pressed = s.pressed := rfl
@[simp] theorem hostStop_params : (hostStop s).params = s.params := rfl
@[simp] theorem hostStop_inputs : (hostStop s).inputs = s.inputs := rfl

end Sys2Proof.Machine
end

