-- ==== Sys2Proof/Laws/Registers.lean ====
section
/-! SUPPORT. Registers and inputs: read after write. -/

namespace Sys2Proof.Machine

/-- Reading the register just written. -/
@[simp] theorem getV_setV_same (s : State) (x : Nibble) (b : Byte) : (s.setV x b).getV x = b := by
  simp [State.getV, State.setV]

/-- A write leaves every other register alone. -/
theorem getV_setV_other (s : State) {x y : Nibble} (b : Byte) (h : y ≠ x) : (s.setV x b).getV y = s.getV y := by
  have hne : x.toNat ≠ y.toNat := fun e => h (BitVec.eq_of_toNat_eq e.symm)
  simp [State.getV, State.setV, hne]

/-- Reading any register after a write. -/
theorem getV_setV (s : State) (x y : Nibble) (b : Byte) :
    (s.setV x b).getV y = if y = x then b else s.getV y := by
  split
  · next h => rw [h, getV_setV_same]
  · next h => exact getV_setV_other s b h

/-- Registers read alike are one register file. -/
theorem v_ext {s t : State} (h : ∀ r, s.getV r = t.getV r) : s.v = t.v := by
  apply Vector.ext
  intro k hk
  have := h (BitVec.ofNat 4 k)
  simpa [State.getV, BitVec.toNat_ofNat, Nat.mod_eq_of_lt hk] using this

/-- Registers are read from the register file alone. -/
theorem getV_of_v {s t : State} (h : t.v = s.v) (r : Nibble) : t.getV r = s.getV r := by
  simp [State.getV, h]

@[simp] theorem getV_setMode (s : State) (m : Mode) (r : Nibble) : (s.setMode m).getV r = s.getV r := rfl

@[simp] theorem getV_takeTurn (s : State) (r : Nibble) : s.takeTurn.getV r = s.getV r := rfl

@[simp] theorem getV_advance (s : State) (r : Nibble) : (advance s).getV r = s.getV r := rfl

@[simp] theorem getV_publish (s : State) (r : Nibble) : (publish s).getV r = s.getV r := rfl

@[simp] theorem getV_takeFault (f : Fault) (a : Word) (op : Option Word) (s : State) (r : Nibble) :
    (takeFault f a op s).getV r = s.getV r := rfl

/-- The given turn comes first (log entry 5). -/
@[simp] theorem nextTurn_given (s : State) (t : Turn) (ts : List Turn) (h : s.inputs.agenda = t :: ts) :
    s.nextTurn = t := by simp [State.nextTurn, h]

/-- Without a given turn the schedule is free (log entry 5). -/
theorem nextTurn_free (s : State) (h : s.inputs.agenda = []) :
    s.nextTurn = Config.schedule s.inputs.clock := by simp [State.nextTurn, h]

/-- Without a given byte the draw is free (log entry 6). -/
theorem nextByte_free (s : State) (h : s.inputs.bytes = []) :
    s.nextByte = Config.randByte s.inputs.clock := by simp [State.nextByte, h]

/-- Without a given reading the key-down input is free (log entry 7). -/
theorem nextKey_free (s : State) (k : Nibble) (h : s.inputs.keys = []) :
    s.nextKey k = Config.keyDown s.inputs.clock k := by simp [State.nextKey, h]

end Sys2Proof.Machine
end

