-- ==== Sys2Proof/Laws/Framebuffer.lean ====
section
/-! SUPPORT. Grids: read after write, extensionality; the XOR pixel primitive. -/

namespace Sys2Proof.Machine

/-- A pixel read after a pixel write; both wrap (44_display R171). -/
theorem Grid.get_put (g : Grid) (x y x' y' : Nat) (b : Bool) :
    (g.put x y b).get x' y' = if x' % 64 = x % 64 ∧ y' % 32 = y % 32 then b else g.get x' y' := by
  unfold Grid.get Grid.put
  rw [Vector.getElem_set]
  by_cases hx : x' % 64 = x % 64
  · simp only [hx, if_true, true_and]
    rw [Vector.getElem_set]
    by_cases hy : y' % 32 = y % 32
    · simp [hy]
    · have : ¬(y % 32 = y' % 32) := fun e => hy e.symm
      simp [hy, this]
  · have : ¬(x % 64 = x' % 64) := fun e => hx e.symm
    simp [hx, this]

/-- Coordinates wrap on a read (44_display R171). -/
theorem Grid.get_wrap (g : Grid) (x y : Nat) : g.get (x % 64) (y % 32) = g.get x y := by
  simp [Grid.get]

/-- Grids with the same pixels are one grid. -/
theorem Grid.ext {g h : Grid} (e : ∀ x y, x < 64 → y < 32 → g.get x y = h.get x y) : g = h := by
  apply Vector.ext
  intro x hx
  apply Vector.ext
  intro y hy
  have := e x y hx hy
  simpa [Grid.get, Nat.mod_eq_of_lt hx, Nat.mod_eq_of_lt hy] using this

/-- Every pixel of the cleared grid is off. -/
@[simp] theorem Grid.get_off (x y : Nat) : Grid.off.get x y = false := by
  simp [Grid.get, Grid.off]

/-- The pixels after the XOR primitive (44_display R172). -/
theorem xorPixel_get (px py x y : Nat) (s : State) :
    (xorPixel px py s).fb.get x y =
      if x % 64 = px % 64 ∧ y % 32 = py % 32 then !s.fb.get px py else s.fb.get x y := by
  unfold xorPixel
  dsimp only
  split <;> simp [Grid.get_put]

/-- VF after the XOR primitive: a collision sets it (44_display R172, R176). -/
theorem xorPixel_vf (px py : Nat) (s : State) :
    (xorPixel px py s).getV vf = if s.fb.get px py then 1 else s.getV vf := by
  unfold xorPixel
  dsimp only
  split <;> simp [State.getV, State.setV]

/-- The XOR primitive changes FB and VF alone. -/
theorem xorPixel_frame (px py : Nat) (s : State) :
    xorPixel px py s = { s with v := (xorPixel px py s).v, fb := (xorPixel px py s).fb } ∧
    ∀ r, r ≠ vf → (xorPixel px py s).getV r = s.getV r := by
  unfold xorPixel
  dsimp only
  split
  · refine ⟨rfl, fun r hr => ?_⟩
    rw [getV_setV_other _ _ hr]; rfl
  · exact ⟨rfl, fun _ _ => rfl⟩

end Sys2Proof.Machine
end

