-- ==== Sys2Proof/Laws/Memory.lean ====
section
/-! SUPPORT. Memory: read after write, and every operation keeps the canonical form. -/

namespace Sys2Proof.Machine

theorem Mem.wfFrom_mono {lo lo' : Nat} {m : Mem} (h : Mem.wfFrom lo m = true) (hle : lo' ≤ lo) :
    Mem.wfFrom lo' m = true := by
  cases m with
  | nil => rfl
  | cons c rest =>
    simp only [Mem.wfFrom, Bool.and_eq_true, decide_eq_true_eq] at h ⊢
    exact ⟨⟨⟨by omega, h.1.1.2⟩, h.1.2⟩, h.2⟩

/-- Below its first address a canonical memory lists nothing. -/
theorem Mem.read_below {lo a : Nat} {m : Mem} (h : Mem.wfFrom lo m = true) (ha : a < lo) :
    m.read a = unlistedByte := by
  induction m generalizing lo with
  | nil => rfl
  | cons c rest ih =>
    simp only [Mem.wfFrom, Bool.and_eq_true, decide_eq_true_eq] at h
    have : a ≠ c.1 := by omega
    simp only [Mem.read, this, if_false]
    exact ih h.2 (by omega)

theorem Mem.read_entry_self {lo a : Nat} {b : Byte} {rest : Mem} (h : Mem.wfFrom lo rest = true) (ha : a < lo) :
    (Mem.entry a b rest).read a = b := by
  unfold Mem.entry
  split
  · next hb => rw [hb]; exact Mem.read_below h ha
  · simp [Mem.read]

theorem Mem.read_entry_other {a a' : Nat} {b : Byte} {rest : Mem} (h : a' ≠ a) :
    (Mem.entry a b rest).read a' = rest.read a' := by
  unfold Mem.entry
  split <;> simp [Mem.read, h]

theorem Mem.wfFrom_entry {lo a : Nat} {b : Byte} {rest : Mem} (h : Mem.wfFrom (a + 1) rest = true)
    (hlo : lo ≤ a) (ha : a < memSize) : Mem.wfFrom lo (Mem.entry a b rest) = true := by
  unfold Mem.entry
  split
  · exact Mem.wfFrom_mono h (by omega)
  · next hb => simp [Mem.wfFrom, hlo, ha, hb, h]

theorem Mem.wfFrom_write {lo a : Nat} {b : Byte} {m : Mem} (h : Mem.wfFrom lo m = true)
    (hlo : lo ≤ a) (ha : a < memSize) : Mem.wfFrom lo (m.write a b) = true := by
  induction m generalizing lo with
  | nil => exact Mem.wfFrom_entry rfl hlo ha
  | cons c rest ih =>
    simp only [Mem.wfFrom, Bool.and_eq_true, decide_eq_true_eq] at h
    obtain ⟨⟨⟨h1, h2⟩, h3⟩, h4⟩ := h
    simp only [Mem.write]
    split
    · next hac =>
      refine Mem.wfFrom_entry ?_ hlo ha
      simp only [Mem.wfFrom, Bool.and_eq_true, decide_eq_true_eq]
      exact ⟨⟨⟨by omega, h2⟩, h3⟩, h4⟩
    · split
      · next _ he => exact Mem.wfFrom_entry (he ▸ h4) hlo ha
      · simp only [Mem.wfFrom, Bool.and_eq_true, decide_eq_true_eq]
        exact ⟨⟨⟨h1, h2⟩, h3⟩, ih h4 (by omega)⟩

/-- A write below MEM_SIZE keeps the canonical form. -/
theorem Mem.wf_write {a : Nat} {b : Byte} {m : Mem} (h : m.wf = true) (ha : a < memSize) :
    (m.write a b).wf = true :=
  Mem.wfFrom_write h (Nat.zero_le a) ha

/-- Read after write at the same address. -/
theorem Mem.read_write_same {a : Nat} {b : Byte} {m : Mem} (h : m.wf = true) : (m.write a b).read a = b := by
  suffices ∀ lo, Mem.wfFrom lo m = true → (m.write a b).read a = b from this 0 h
  clear h
  induction m with
  | nil => intro lo _; exact Mem.read_entry_self (lo := a + 1) rfl (by omega)
  | cons c rest ih =>
    intro lo h
    have hc := h
    simp only [Mem.wfFrom, Bool.and_eq_true, decide_eq_true_eq] at h
    simp only [Mem.write]
    split
    · next hac =>
      refine Mem.read_entry_self (lo := c.1) ?_ hac
      simp only [Mem.wfFrom, Bool.and_eq_true, decide_eq_true_eq]
      exact ⟨⟨⟨le_refl _, h.1.1.2⟩, h.1.2⟩, h.2⟩
    · split
      · next _ he => exact Mem.read_entry_self h.2 (by omega)
      · next _ he => simp only [Mem.read, he, if_false]; exact ih _ h.2

/-- A write leaves every other address alone. -/
theorem Mem.read_write_other {a a' : Nat} {b : Byte} {m : Mem} (h : a' ≠ a) :
    (m.write a b).read a' = m.read a' := by
  induction m with
  | nil => exact Mem.read_entry_other h
  | cons c rest ih =>
    simp only [Mem.write]
    split
    · exact Mem.read_entry_other h
    · split
      · next _ he => rw [Mem.read_entry_other h]; simp [Mem.read, ← he, h]
      · simp only [Mem.read, ih]

/-- Writing bytes that end at or below MEM_SIZE keeps the canonical form. -/
theorem Mem.wf_writeList {a : Nat} {bs : List Byte} {m : Mem} (h : m.wf = true)
    (ha : a + bs.length ≤ memSize) : (m.writeList a bs).wf = true := by
  induction bs generalizing a m with
  | nil => exact h
  | cons b bs ih =>
    simp only [List.length_cons] at ha
    exact ih (Mem.wf_write h (by omega)) (by omega)

/-- Bytes written in a row leave every address outside them alone. -/
theorem Mem.read_writeList_other {a a' : Nat} {bs : List Byte} {m : Mem}
    (h : a' < a ∨ a + bs.length ≤ a') : (m.writeList a bs).read a' = m.read a' := by
  induction bs generalizing a m with
  | nil => rfl
  | cons b bs ih =>
    simp only [List.length_cons] at h
    simp only [Mem.writeList]
    rw [ih (by omega), Mem.read_write_other (by omega)]

/-- Bytes written in a row read back. -/
theorem Mem.read_writeList_get {a k : Nat} {bs : List Byte} {m : Mem} (h : m.wf = true)
    (ha : a + bs.length ≤ memSize) (hk : k < bs.length) : (m.writeList a bs).read (a + k) = bs[k] := by
  induction bs generalizing a k m with
  | nil => simp at hk
  | cons b bs ih =>
    simp only [List.length_cons] at ha hk
    simp only [Mem.writeList]
    cases k with
    | zero =>
      rw [Mem.read_writeList_other (by omega)]
      simpa using Mem.read_write_same h
    | succ k =>
      have := ih (a := a + 1) (k := k) (Mem.wf_write (a := a) (b := b) h (by omega)) (by omega) (by omega)
      simpa [Nat.add_assoc, Nat.add_comm, Nat.add_left_comm] using this

/-- A word stored by `Mem.writeWord` keeps the canonical form. -/
theorem Mem.wf_writeWord {a : Nat} {w : Word} {m : Mem} (h : m.wf = true) : (m.writeWord a w).wf = true := by
  unfold Mem.writeWord
  split
  · exact Mem.wf_writeList h (by simp only [bytesOfWord, List.length_cons, List.length_nil]; omega)
  · exact h

/-- The reset memory is in canonical form. -/
theorem State.reset_mem_wf : State.reset.mem.wf = true := by decide

/-- What MemRead can do (20_memory R51). -/
theorem memRead_cases (addr : Nat) (s : State) :
    (addr < memSize ∧ memRead addr s = .ok (s.byteAt addr)) ∨
    (memSize ≤ addr ∧ memRead addr s = .error (.memOutOfRange addr)) := by
  unfold memRead
  split
  · exact .inl ⟨by assumption, rfl⟩
  · exact .inr ⟨by omega, rfl⟩

/-- What MemWrite can do (20_memory R52). -/
theorem memWrite_cases (addr : Nat) (b : Byte) (s : State) :
    (addr < memSize ∧ memWrite addr b s = .ok { s with mem := s.mem.write addr b }) ∨
    (memSize ≤ addr ∧ memWrite addr b s = .error (.memOutOfRange addr)) := by
  unfold memWrite
  split
  · exact .inl ⟨by assumption, rfl⟩
  · exact .inr ⟨by omega, rfl⟩

end Sys2Proof.Machine
end

