-- ==== Sys2Proof/Laws/Effects.lean ====
section
/-! SUPPORT. What each shared operation of the instructions can do. -/

namespace Sys2Proof.Machine

/-- An effect's outcome is a next state: its own, or fault entry (60_exceptions R221). -/
theorem Effect.outcome_cases (i : Instr) (e : Effect) :
    (∃ s, e = .done s ∧ e.outcome i = .next s) ∨
    (∃ f s, e = .raised f s ∧ e.outcome i = .next (raiseIn i f s)) := by
  cases e with
  | done s => exact .inl ⟨s, rfl, rfl⟩
  | raised f s => exact .inr ⟨f, s, rfl, rfl⟩

@[simp] theorem Effect.done_andThen (s : State) (k : State → Effect) : (Effect.done s).andThen k = k s := rfl

@[simp] theorem Effect.raised_andThen (f : Fault) (s : State) (k : State → Effect) :
    (Effect.raised f s).andThen k = .raised f s := rfl

@[simp] theorem Effect.final_done (s : State) : (Effect.done s).final = s := rfl

@[simp] theorem Effect.final_raised (f : Fault) (s : State) : (Effect.raised f s).final = s := rfl

/-- What a write to I can do (10_state R28, 60_exceptions R218). -/
theorem writeIndex_cases (a : Nat) (s : State) :
    (a < memSize ∧ writeIndex a s = .done (s.setI (BitVec.ofNat 12 a))) ∨
    (memSize ≤ a ∧ writeIndex a s = .raised (.indexOutOfRange a) s) := by
  unfold writeIndex
  split
  · exact .inl ⟨by assumption, rfl⟩
  · exact .inr ⟨by omega, rfl⟩

/-- What a byte store can do (20_memory R52). -/
theorem storeByte_cases (addr : Nat) (b : Byte) (s : State) :
    (addr < memSize ∧ storeByte addr b s = .done { s with mem := s.mem.write addr b }) ∨
    (memSize ≤ addr ∧ storeByte addr b s = .raised (.memOutOfRange addr) s) := by
  unfold storeByte
  rcases memWrite_cases addr b s with ⟨h, e⟩ | ⟨h, e⟩
  · exact .inl ⟨h, by rw [e]⟩
  · exact .inr ⟨h, by rw [e]⟩

/-- What a byte load can do (20_memory R51). -/
theorem loadByte_cases (addr : Nat) (k : Byte → Effect) (s : State) :
    (addr < memSize ∧ loadByte addr k s = k (s.byteAt addr)) ∨
    (memSize ≤ addr ∧ loadByte addr k s = .raised (.memOutOfRange addr) s) := by
  unfold loadByte
  rcases memRead_cases addr s with ⟨h, e⟩ | ⟨h, e⟩
  · exact .inl ⟨h, by rw [e]⟩
  · exact .inr ⟨h, by rw [e]⟩

/-- The decimal stores of Fx33 change memory alone, and only the three bytes from I up (43_index_memory R153). -/
theorem storeBcd_frame (a : Byte) (s : State) :
    (storeBcd a s).final = { s with mem := (storeBcd a s).final.mem } ∧
    (s.mem.wf = true → (storeBcd a s).final.mem.wf = true) ∧
    ∀ k, k < indexed s 0 ∨ indexed s 2 < k → (storeBcd a s).final.byteAt k = s.byteAt k := by
  unfold storeBcd
  have hlt : indexed s 0 < indexed s 1 ∧ indexed s 1 < indexed s 2 := by simp only [indexed]; omega
  generalize indexed s 0 = a0, indexed s 1 = a1, indexed s 2 = a2 at hlt
  rcases storeByte_cases a0 (hundreds a) s with ⟨h0, e0⟩ | ⟨h0, e0⟩ <;> rw [e0]
  swap
  · exact ⟨rfl, fun h => h, fun _ _ => rfl⟩
  rw [Effect.done_andThen]
  rcases storeByte_cases a1 (tens a) { s with mem := s.mem.write a0 (hundreds a) } with ⟨h1, e1⟩ | ⟨h1, e1⟩ <;> rw [e1]
  swap
  · exact ⟨rfl, fun h => Mem.wf_write h h0, fun k hk => Mem.read_write_other (by omega)⟩
  rw [Effect.done_andThen]
  rcases storeByte_cases a2 (ones a)
    { s with mem := (s.mem.write a0 (hundreds a)).write a1 (tens a) } with ⟨h2, e2⟩ | ⟨h2, e2⟩ <;> rw [e2]
  · refine ⟨rfl, fun h => Mem.wf_write (Mem.wf_write (Mem.wf_write h h0) h1) h2, fun k hk => ?_⟩
    exact (Mem.read_write_other (by omega)).trans
      ((Mem.read_write_other (by omega)).trans (Mem.read_write_other (by omega)))
  · refine ⟨rfl, fun h => Mem.wf_write (Mem.wf_write h h0) h1, fun k hk => ?_⟩
    exact (Mem.read_write_other (by omega)).trans (Mem.read_write_other (by omega))

/-- The stores of Fx55 change memory alone, and only the bytes from I + j up (43_index_memory R154). -/
theorem storeRegs_frame (n j : Nat) (s : State) :
    (storeRegs n j s).final = { s with mem := (storeRegs n j s).final.mem } ∧
    (s.mem.wf = true → (storeRegs n j s).final.mem.wf = true) ∧
    ∀ k, k < indexed s j ∨ indexed s (j + n) ≤ k → (storeRegs n j s).final.byteAt k = s.byteAt k := by
  induction n generalizing j s with
  | zero => exact ⟨rfl, fun h => h, fun _ _ => rfl⟩
  | succ n ih =>
    simp only [storeRegs]
    rcases storeByte_cases (indexed s j) (s.getV (BitVec.ofNat 4 j)) s with ⟨h, e⟩ | ⟨h, e⟩ <;> rw [e]
    · obtain ⟨h1, h2, h3⟩ := ih (j + 1) { s with mem := s.mem.write (indexed s j) (s.getV (BitVec.ofNat 4 j)) }
      refine ⟨by rw [Effect.done_andThen, h1], fun hw => h2 (Mem.wf_write hw h), fun k hk => ?_⟩
      rw [Effect.done_andThen, h3 k (by simp only [indexed] at *; omega)]
      exact Mem.read_write_other (by simp only [indexed] at *; omega)
    · exact ⟨rfl, fun h => h, fun _ _ => rfl⟩

/-- Fx55's stores succeed while they stay below MEM_SIZE, and each register is where it belongs
(43_index_memory R154). -/
theorem storeRegs_done {n j : Nat} {s : State} (h : indexed s (j + n) ≤ memSize) :
    ∃ t, storeRegs n j s = .done t ∧
      (s.mem.wf = true → ∀ k, j ≤ k → k < j + n → t.byteAt (indexed s k) = s.getV (BitVec.ofNat 4 k)) := by
  induction n generalizing j s with
  | zero => exact ⟨s, rfl, fun _ k h1 h2 => by omega⟩
  | succ n ih =>
    simp only [storeRegs]
    rcases storeByte_cases (indexed s j) (s.getV (BitVec.ofNat 4 j)) s with ⟨hb, e⟩ | ⟨hb, e⟩
    · rw [e, Effect.done_andThen]
      have hi : ∀ m, indexed { s with mem := s.mem.write (indexed s j) (s.getV (BitVec.ofNat 4 j)) } m = indexed s m :=
        fun _ => rfl
      obtain ⟨t, ht, hr⟩ := ih (j := j + 1)
        (s := { s with mem := s.mem.write (indexed s j) (s.getV (BitVec.ofNat 4 j)) })
        (by rw [hi]; simp only [indexed] at *; omega)
      refine ⟨t, ht, fun hw k h1 h2 => ?_⟩
      by_cases hk : k = j
      · subst hk
        have hf := (storeRegs_frame n (k + 1)
          { s with mem := s.mem.write (indexed s k) (s.getV (BitVec.ofNat 4 k)) }).2.2 (indexed s k)
          (.inl (by simp only [indexed]; omega))
        rw [ht] at hf
        exact hf.trans (Mem.read_write_same hw)
      · exact hr (Mem.wf_write hw hb) k (by omega) (by omega)
    · simp only [indexed] at *; omega

/-- Fx55's stores past the top raise at the first address outside memory (43_index_memory R154). -/
theorem storeRegs_raised {n j : Nat} {s : State} (h0 : indexed s j ≤ memSize)
    (h : memSize < indexed s (j + n)) :
    ∃ t, storeRegs n j s = .raised (.memOutOfRange memSize) t ∧ t = { s with mem := t.mem } := by
  induction n generalizing j s with
  | zero => simp only [indexed, memSize] at *; omega
  | succ n ih =>
    simp only [storeRegs]
    rcases storeByte_cases (indexed s j) (s.getV (BitVec.ofNat 4 j)) s with ⟨hb, e⟩ | ⟨hb, e⟩
    · rw [e, Effect.done_andThen]
      obtain ⟨t, ht, hf⟩ := ih (j := j + 1)
        (s := { s with mem := s.mem.write (indexed s j) (s.getV (BitVec.ofNat 4 j)) })
        (by simp only [indexed] at *; omega) (by simp only [indexed] at *; omega)
      exact ⟨t, ht, hf⟩
    · have : indexed s j = memSize := by omega
      rw [e, this]
      exact ⟨s, rfl, rfl⟩

/-- The loads of Fx65 change general registers alone, V[j] and up (43_index_memory R155). -/
theorem loadRegs_frame (n j : Nat) (s : State) :
    (loadRegs n j s).final = { s with v := (loadRegs n j s).final.v } ∧
    (j + n ≤ 16 → ∀ r : Nibble, r.toNat < j ∨ j + n ≤ r.toNat → (loadRegs n j s).final.getV r = s.getV r) := by
  induction n generalizing j s with
  | zero => exact ⟨rfl, fun _ _ _ => rfl⟩
  | succ n ih =>
    simp only [loadRegs]
    rcases loadByte_cases (indexed s j)
      (fun b => loadRegs n (j + 1) (s.setV (BitVec.ofNat 4 j) b)) s with ⟨h, e⟩ | ⟨h, e⟩ <;> rw [e]
    · obtain ⟨h1, h2⟩ := ih (j + 1) (s.setV (BitVec.ofNat 4 j) (s.byteAt (indexed s j)))
      refine ⟨by rw [h1]; rfl, fun hj r hr => ?_⟩
      rw [h2 (by omega) r (by omega), getV_setV_other]
      intro hc
      rw [hc, BitVec.toNat_ofNat, Nat.mod_eq_of_lt (by omega)] at hr
      omega
    · exact ⟨rfl, fun _ _ _ => rfl⟩

/-- Fx65's loads succeed while they stay below MEM_SIZE, and each register takes its byte
(43_index_memory R155). -/
theorem loadRegs_done {n j : Nat} {s : State} (hj : j + n ≤ 16) (h : indexed s (j + n) ≤ memSize) :
    ∃ t, loadRegs n j s = .done t ∧
      ∀ r : Nibble, j ≤ r.toNat → r.toNat < j + n → t.getV r = s.byteAt (indexed s r.toNat) := by
  induction n generalizing j s with
  | zero => exact ⟨s, rfl, fun _ h1 h2 => by omega⟩
  | succ n ih =>
    simp only [loadRegs]
    rcases loadByte_cases (indexed s j)
      (fun b => loadRegs n (j + 1) (s.setV (BitVec.ofNat 4 j) b)) s with ⟨hb, e⟩ | ⟨hb, e⟩
    · rw [e]
      obtain ⟨t, ht, hr⟩ := ih (j := j + 1)
        (s := s.setV (BitVec.ofNat 4 j) (s.byteAt (indexed s j))) (by omega)
        (by simp only [indexed, setV_i] at *; omega)
      refine ⟨t, ht, fun r h1 h2 => ?_⟩
      by_cases hk : r.toNat = j
      · have hf := (loadRegs_frame n (j + 1) (s.setV (BitVec.ofNat 4 j) (s.byteAt (indexed s j)))).2
          (by omega) r (.inl (by omega))
        rw [ht] at hf
        have hrj : r = BitVec.ofNat 4 j := BitVec.eq_of_toNat_eq (by
          rw [BitVec.toNat_ofNat, Nat.mod_eq_of_lt (by omega)]; exact hk)
        rw [show t.getV r = _ from hf, hrj, getV_setV_same, ← hrj, hk]
      · exact hr r (by omega) (by omega)
    · simp only [indexed] at *; omega

/-- Fx65's loads past the top raise at the first address outside memory (43_index_memory R155). -/
theorem loadRegs_raised {n j : Nat} {s : State} (h0 : indexed s j ≤ memSize)
    (h : memSize < indexed s (j + n)) :
    ∃ t, loadRegs n j s = .raised (.memOutOfRange memSize) t ∧ t = { s with v := t.v } := by
  induction n generalizing j s with
  | zero => simp only [indexed, memSize] at *; omega
  | succ n ih =>
    simp only [loadRegs]
    rcases loadByte_cases (indexed s j)
      (fun b => loadRegs n (j + 1) (s.setV (BitVec.ofNat 4 j) b)) s with ⟨hb, e⟩ | ⟨hb, e⟩
    · rw [e]
      obtain ⟨t, ht, hf⟩ := ih (j := j + 1)
        (s := s.setV (BitVec.ofNat 4 j) (s.byteAt (indexed s j)))
        (by simp only [indexed, setV_i] at *; omega) (by simp only [indexed, setV_i] at *; omega)
      exact ⟨t, ht, by rw [hf]; rfl⟩
    · have : indexed s j = memSize := by omega
      rw [e, this]
      exact ⟨s, rfl, rfl⟩

/-- One bit of a sprite row changes FB and VF alone (44_display R176). -/
theorem drawBit_frame (b : Byte) (x0 y : Nat) (s : State) (bit : Nat) :
    drawBit b x0 y s bit = { s with v := (drawBit b x0 y s bit).v, fb := (drawBit b x0 y s bit).fb } ∧
    ∀ r, r ≠ vf → (drawBit b x0 y s bit).getV r = s.getV r := by
  unfold drawBit
  split
  · exact xorPixel_frame _ _ _
  · exact ⟨rfl, fun _ _ => rfl⟩

theorem drawBits_frame (b : Byte) (x0 y : Nat) (bits : List Nat) (s : State) :
    bits.foldl (drawBit b x0 y) s =
      { s with v := (bits.foldl (drawBit b x0 y) s).v, fb := (bits.foldl (drawBit b x0 y) s).fb } ∧
    ∀ r, r ≠ vf → (bits.foldl (drawBit b x0 y) s).getV r = s.getV r := by
  induction bits generalizing s with
  | nil => exact ⟨rfl, fun _ _ => rfl⟩
  | cons k ks ih =>
    simp only [List.foldl_cons]
    obtain ⟨h1, h2⟩ := ih (drawBit b x0 y s k)
    obtain ⟨g1, g2⟩ := drawBit_frame b x0 y s k
    refine ⟨?_, fun r hr => (h2 r hr).trans (g2 r hr)⟩
    generalize List.foldl (drawBit b x0 y) (drawBit b x0 y s k) ks = u at h1 ⊢
    rw [h1, g1]

/-- One row of a sprite changes FB and VF alone (44_display R176). -/
theorem drawRow_frame (b : Byte) (x0 y : Nat) (s : State) :
    drawRow b x0 y s = { s with v := (drawRow b x0 y s).v, fb := (drawRow b x0 y s).fb } ∧
    ∀ r, r ≠ vf → (drawRow b x0 y s).getV r = s.getV r :=
  drawBits_frame b x0 y (List.range 8) s

/-- The rows of a sprite change FB and VF alone (44_display R176). -/
theorem drawRows_frame (x0 y0 n row : Nat) (s : State) :
    (drawRows x0 y0 n row s).final =
      { s with v := (drawRows x0 y0 n row s).final.v, fb := (drawRows x0 y0 n row s).final.fb } ∧
    ∀ r, r ≠ vf → (drawRows x0 y0 n row s).final.getV r = s.getV r := by
  induction n generalizing row s with
  | zero => exact ⟨rfl, fun _ _ => rfl⟩
  | succ n ih =>
    simp only [drawRows]
    rcases loadByte_cases (indexed s row)
      (fun b => drawRows x0 y0 n (row + 1) (drawRow b x0 ((y0 + row) % 32) s)) s with ⟨h, e⟩ | ⟨h, e⟩ <;> rw [e]
    · obtain ⟨h1, h2⟩ := ih (row + 1) (drawRow (s.byteAt (indexed s row)) x0 ((y0 + row) % 32) s)
      obtain ⟨g1, g2⟩ := drawRow_frame (s.byteAt (indexed s row)) x0 ((y0 + row) % 32) s
      refine ⟨?_, fun r hr => (h2 r hr).trans (g2 r hr)⟩
      generalize (drawRows x0 y0 n (row + 1) (drawRow (s.byteAt (indexed s row)) x0 ((y0 + row) % 32) s)).final = u at h1 ⊢
      rw [h1, g1]
    · exact ⟨rfl, fun _ _ => rfl⟩

/-- A sprite's rows are all read while they stay below MEM_SIZE (44_display R176). -/
theorem drawRows_done {x0 y0 n row : Nat} {s : State} (h : indexed s (row + n) ≤ memSize) :
    ∃ t, drawRows x0 y0 n row s = .done t := by
  induction n generalizing row s with
  | zero => exact ⟨s, rfl⟩
  | succ n ih =>
    simp only [drawRows]
    rcases loadByte_cases (indexed s row)
      (fun b => drawRows x0 y0 n (row + 1) (drawRow b x0 ((y0 + row) % 32) s)) s with ⟨hb, e⟩ | ⟨hb, e⟩ <;> rw [e]
    · refine ih ?_
      rw [(drawRow_frame _ _ _ _).1]
      simp only [indexed] at *
      omega
    · simp only [indexed] at *; omega

/-- A sprite past the top raises at the first address outside memory (44_display R176). -/
theorem drawRows_raised {x0 y0 n row : Nat} {s : State} (h0 : indexed s row ≤ memSize)
    (h : memSize < indexed s (row + n)) :
    ∃ t, drawRows x0 y0 n row s = .raised (.memOutOfRange memSize) t := by
  induction n generalizing row s with
  | zero => simp only [indexed, memSize] at *; omega
  | succ n ih =>
    simp only [drawRows]
    rcases loadByte_cases (indexed s row)
      (fun b => drawRows x0 y0 n (row + 1) (drawRow b x0 ((y0 + row) % 32) s)) s with ⟨hb, e⟩ | ⟨hb, e⟩ <;> rw [e]
    · refine ih ?_ ?_ <;> rw [(drawRow_frame _ _ _ _).1] <;> simp only [indexed] at * <;> omega
    · have : indexed s row = memSize := by omega
      rw [this]
      exact ⟨s, rfl⟩

end Sys2Proof.Machine
end

