-- ==== Sys2Proof/Laws/Exec.lean ====
section
/-! SUPPORT. What executing one instruction can do to the machine's control state, over all instructions. -/

namespace Sys2Proof.Machine

/-- An effect answers a next state: what it leaves, or fault entry on what it leaves. -/
theorem Effect.outcome_final {i : Instr} {e : Effect} {t : State} (h : e.outcome i = .next t) :
    t = e.final ∨ ∃ f, t = raiseIn i f e.final := by
  cases e with
  | done s => cases h; exact .inl rfl
  | raised f s => cases h; exact .inr ⟨f, rfl⟩

/-- What `exec i` may do to the control state of s: go on, wait for a key, or raise a fault. -/
structure ExecControl (i : Instr) (s t : State) : Prop where
  params : t.params = s.params
  out : t.out = s.out
  pressed : t.pressed = s.pressed
  agenda : t.inputs.agenda = s.inputs.agenda
  ends : (t.mode = s.mode ∧ t.fault = s.fault ∧ t.running = s.running) ∨
    (∃ x, i = .ldVxK x ∧ t = { s with mode := .awaitKey x }) ∨
    (∃ f, t.fault = some { fault := f, addr := s.pc - 2, op := some (encode i) } ∧ t.mode = .faulted ∧
      t.running = false ∧ t.pc = s.pc ∧ t.stack = s.stack)

/-- An update that leaves the control state alone. -/
theorem ExecControl.same {i : Instr} {s t : State} (h : t = { s with v := t.v, i := t.i, pc := t.pc, stack := t.stack, mem := t.mem, fb := t.fb, disp := t.disp, dirty := t.dirty, dt := t.dt, st := t.st }) :
    ExecControl i s t := by
  rw [h]
  exact ⟨rfl, rfl, rfl, rfl, .inl ⟨rfl, rfl, rfl⟩⟩

/-- A fault raised on a state that leaves control, PC and stack alone. -/
theorem ExecControl.raise {i : Instr} {f : Fault} {s u : State}
    (h : u = { s with v := u.v, i := u.i, mem := u.mem, fb := u.fb, disp := u.disp, dirty := u.dirty, dt := u.dt, st := u.st }) :
    ExecControl i s (raiseIn i f u) := by
  rw [h]
  exact ⟨rfl, rfl, rfl, rfl, .inr (.inr ⟨f, rfl, rfl, rfl, rfl, rfl⟩)⟩

/-- An effect that leaves control, PC and stack alone. -/
theorem ExecControl.effect {i : Instr} {e : Effect} {s t : State} (ho : e.outcome i = .next t)
    (h : e.final = { s with v := e.final.v, i := e.final.i, mem := e.final.mem, fb := e.final.fb, disp := e.final.disp, dirty := e.final.dirty }) :
    ExecControl i s t := by
  rcases Effect.outcome_final ho with rfl | ⟨f, rfl⟩
  · exact .same (by rw [h])
  · exact .raise (by rw [h])

/-- I is written or left; nothing else. -/
theorem writeIndex_final (a : Nat) (s : State) :
    (writeIndex a s).final = { s with i := (writeIndex a s).final.i } := by
  rcases writeIndex_cases a s with ⟨_, e⟩ | ⟨_, e⟩ <;> rw [e] <;> rfl

/-- The whole effect of Fx55: memory and I alone. -/
theorem ldMemVx_final (x : Nibble) (s : State) :
    ((storeRegs (x.toNat + 1) 0 s).andThen (bumpIndex x)).final =
      { s with mem := ((storeRegs (x.toNat + 1) 0 s).andThen (bumpIndex x)).final.mem,
               i := ((storeRegs (x.toNat + 1) 0 s).andThen (bumpIndex x)).final.i } := by
  have h := (storeRegs_frame (x.toNat + 1) 0 s).1
  revert h
  cases storeRegs (x.toNat + 1) 0 s with
  | done u =>
    intro h
    simp only [Effect.final_done] at h
    rw [Effect.done_andThen, bumpIndex, writeIndex_final, h]
  | raised f u =>
    intro h
    simp only [Effect.final_raised] at h
    rw [Effect.raised_andThen, Effect.final_raised, h]

/-- The whole effect of Fx65: registers and I alone. -/
theorem ldVxMem_final (x : Nibble) (s : State) :
    ((loadRegs (x.toNat + 1) 0 s).andThen (bumpIndex x)).final =
      { s with v := ((loadRegs (x.toNat + 1) 0 s).andThen (bumpIndex x)).final.v,
               i := ((loadRegs (x.toNat + 1) 0 s).andThen (bumpIndex x)).final.i } := by
  have h := (loadRegs_frame (x.toNat + 1) 0 s).1
  revert h
  cases loadRegs (x.toNat + 1) 0 s with
  | done u =>
    intro h
    simp only [Effect.final_done] at h
    rw [Effect.done_andThen, bumpIndex, writeIndex_final, h]
  | raised f u =>
    intro h
    simp only [Effect.final_raised] at h
    rw [Effect.raised_andThen, Effect.final_raised, h]

/-- The whole effect of Dxyn: VF, FB and the display copy alone. -/
theorem drw_final (x0 y0 n : Nat) (s : State) :
    ((drawRows x0 y0 n 0 s).andThen fun t => .done (displayUpdate t)).final =
      { s with v := (drawRows x0 y0 n 0 s).final.v,
               fb := (drawRows x0 y0 n 0 s).final.fb,
               disp := ((drawRows x0 y0 n 0 s).andThen fun t => .done (displayUpdate t)).final.disp,
               dirty := ((drawRows x0 y0 n 0 s).andThen fun t => .done (displayUpdate t)).final.dirty } := by
  have h := (drawRows_frame x0 y0 n 0 s).1
  revert h
  cases drawRows x0 y0 n 0 s with
  | done u =>
    intro h
    simp only [Effect.final_done] at h
    rw [Effect.done_andThen, Effect.final_done, h]
    rfl
  | raised f u =>
    intro h
    simp only [Effect.final_raised] at h
    rw [Effect.raised_andThen, Effect.final_raised, h]

/-- Every instruction answers a next state, in every state. -/
theorem exec_next (i : Instr) (s : State) : ∃ t, exec i s = .next t := by
  have he : ∀ (j : Instr) (e : Effect), ∃ t, e.outcome j = .next t := fun j e => by
    cases e <;> exact ⟨_, rfl⟩
  cases i
  case ret => simp only [exec, execRet]; split <;> exact ⟨_, rfl⟩
  case call nnn => simp only [exec, execCall]; split <;> [exact ⟨_, rfl⟩; split <;> exact ⟨_, rfl⟩]
  case skp x => simp only [exec, execSkp]; split <;> exact ⟨_, rfl⟩
  case sknp x => simp only [exec, execSknp]; split <;> exact ⟨_, rfl⟩
  case ldVxK x => simp only [exec, execLdVxK]; split <;> exact ⟨_, rfl⟩
  case addI x => exact he _ _
  case ldB x => exact he _ _
  case ldMemVx x => exact he _ _
  case ldVxMem x => exact he _ _
  case drw x y n => exact he _ _
  all_goals exact ⟨_, rfl⟩

/-- A skip, taken or not, leaves everything but PC alone. -/
theorem skipIf_frame (c : Bool) (s : State) : skipIf c s = { s with pc := (skipIf c s).pc } := rfl

/-- A skip taken (41_control R113). -/
@[simp] theorem skipIf_true (s : State) : skipIf true s = { s with pc := s.pc + 2 } := rfl

/-- A skip not taken. -/
@[simp] theorem skipIf_false (s : State) : skipIf false s = s := rfl

/-- What executing an instruction can do to the control state. -/
theorem exec_control {i : Instr} {s t : State} (h : exec i s = .next t) : ExecControl i s t := by
  cases i
  case cls =>
    cases h
    split <;> exact .same rfl
  case ret =>
    simp only [exec, execRet] at h
    split at h <;> cases h
    · exact .raise rfl
    · exact .same rfl
  case call nnn =>
    simp only [exec, execCall] at h
    split at h
    · cases h; exact .raise rfl
    · split at h <;> cases h
      · exact .raise rfl
      · exact .same rfl
  case seImm x kk => cases h; exact .same (by rw [skipIf_frame])
  case sneImm x kk => cases h; exact .same (by rw [skipIf_frame])
  case seReg x y => cases h; exact .same (by rw [skipIf_frame])
  case sneReg x y => cases h; exact .same (by rw [skipIf_frame])
  case rnd x kk => cases h; exact ⟨rfl, rfl, rfl, rfl, .inl ⟨rfl, rfl, rfl⟩⟩
  case skp x =>
    simp only [exec, execSkp] at h
    split at h <;> cases h
    · exact .raise rfl
    · rw [skipIf_frame]; exact ⟨rfl, rfl, rfl, rfl, .inl ⟨rfl, rfl, rfl⟩⟩
  case sknp x =>
    simp only [exec, execSknp] at h
    split at h <;> cases h
    · exact .raise rfl
    · rw [skipIf_frame]; exact ⟨rfl, rfl, rfl, rfl, .inl ⟨rfl, rfl, rfl⟩⟩
  case ldVxK x =>
    simp only [exec, execLdVxK] at h
    split at h <;> cases h
    · exact .same rfl
    · exact ⟨rfl, rfl, rfl, rfl, .inr (.inl ⟨x, rfl, rfl⟩)⟩
  case addI x => exact .effect h (by rw [writeIndex_final])
  case ldB x => exact .effect h (by rw [(storeBcd_frame _ _).1])
  case ldMemVx x => exact .effect h (by rw [ldMemVx_final])
  case ldVxMem x => exact .effect h (by rw [ldVxMem_final])
  case drw x y n => exact .effect h (by rw [drw_final]; rfl)
  all_goals (cases h; exact .same rfl)

end Sys2Proof.Machine
end

