-- ==== Sys2Proof/Laws/Cycle.lean ====
section
/-! SUPPORT. What a cycle, a core step and a step of the machine can do: one inversion lemma each. -/

namespace Sys2Proof.Machine

/-- What a fetch can do (40_cycle R91). -/
theorem fetch_cases (s : State) :
    (s.pc.toNat + 1 < memSize ∧
      fetch s = .ok (wordOfBytes (s.byteAt s.pc.toNat) (s.byteAt (s.pc.toNat + 1)))) ∨
    (s.pc.toNat + 1 = memSize ∧ fetch s = .error (.memOutOfRange memSize)) ∨
    (memSize ≤ s.pc.toNat ∧ fetch s = .error (.memOutOfRange s.pc.toNat)) := by
  unfold fetch
  rcases memRead_cases s.pc.toNat s with ⟨h1, e1⟩ | ⟨h1, e1⟩ <;> rw [e1]
  · rcases memRead_cases (s.pc.toNat + 1) s with ⟨h2, e2⟩ | ⟨h2, e2⟩
    · exact .inl ⟨h2, by simp only [e2]⟩
    · have hs : s.pc.toNat + 1 = memSize := by omega
      exact .inr (.inl ⟨hs, by simp only [e2]; rw [hs]⟩)
  · exact .inr (.inr ⟨h1, rfl⟩)

/-- The validation reads PC, the stack, and what always holds: not the mode, not the inputs (40_cycle R95). -/
theorem firstInvalid_congr {s t : State} (hp : t.pc = s.pc) (hs : t.stack = s.stack) :
    firstInvalid t = firstInvalid s := by
  have hv : ∀ u : State, (u.v.toList.all fun b => decide (b.toNat ≤ 255)) = true := fun u => by
    rw [List.all_eq_true]
    intro b _
    have := b.isLt
    simp only [decide_eq_true_eq]
    omega
  have hi : ∀ u : State, decide (u.i.toNat < memSize) = true := fun u => by
    exact decide_eq_true u.i.isLt
  simp only [firstInvalid, hv, hi, hp, hs]

/-- What `finish()` can do (40_cycle R96, R97). -/
theorem finish_cases (a op : Word) (s : State) :
    (∃ r, strictFailure s = some r ∧ finish a op s = takeFault (.invalidState r) a (some op) s) ∨
    (strictFailure s = none ∧ finish a op s = publish s) := by
  unfold finish
  cases h : strictFailure s with
  | some r => exact .inl ⟨r, rfl, rfl⟩
  | none => exact .inr ⟨rfl, rfl⟩

/-- Everything a cycle can do (40_cycle R91 to R97): a fetch fault, a failed validation, an
unimplemented word, or an instruction executed in the advanced state and ended by `endCycle`. -/
theorem runCycle_cases (s : State) :
    (∃ f, fetch s = .error f ∧ runCycle s = .next (takeFault f s.pc none s)) ∨
    (∃ op r, fetch s = .ok op ∧ strictFailure (advance s) = some r ∧
      runCycle s = .next (takeFault (.invalidState r) s.pc (some op) (advance s))) ∨
    (∃ op w, fetch s = .ok op ∧ strictFailure (advance s) = none ∧ decodeWord op = .unimplemented w ∧
      runCycle s = .next (takeFault (.unimplementedOpcode w) s.pc (some op) (advance s))) ∨
    (∃ op i t, fetch s = .ok op ∧ strictFailure (advance s) = none ∧ decodeWord op = .instr i ∧
      exec i (advance s) = .next t ∧ runCycle s = .next (endCycle s.pc op t)) := by
  rcases hf : fetch s with f | op
  · exact .inl ⟨f, rfl, by simp only [runCycle, hf]⟩
  rcases hv : strictFailure (advance s) with _ | r
  · rcases hd : decodeWord op with i | w
    · obtain ⟨t, ht⟩ := exec_next i (advance s)
      exact .inr (.inr (.inr ⟨op, i, t, rfl, rfl, hd, ht, by simp only [runCycle, hf, hv, executeWord, hd, ht]⟩))
    · exact .inr (.inr (.inl ⟨op, w, rfl, rfl, hd, by simp only [runCycle, hf, hv, executeWord, hd]⟩))
  · exact .inr (.inl ⟨op, r, rfl, rfl, by simp only [runCycle, hf, hv]⟩)

/-- Everything the core's step can do (40_cycle R90, R98, R99, R100). -/
theorem coreStep_cases (s : State) :
    ((s.mode = .idle ∨ s.mode = .stopped ∨ s.mode = .faulted) ∧ coreStep s = .next s) ∨
    (s.running = false ∧ (s.mode = .run ∨ ∃ x, s.mode = .awaitKey x) ∧ coreStep s = .next (stopCore s)) ∨
    (s.running = true ∧ s.mode = .run ∧ coreStep s = runCycle s) ∨
    (∃ x, s.running = true ∧ s.mode = .awaitKey x ∧ coreStep s = .next (poll x s)) := by
  unfold coreStep
  cases hm : s.mode <;> cases hr : s.running <;> simp

/-- What a poll can do (40_cycle R99). -/
theorem poll_cases (x : Nibble) (s : State) :
    (s.pressed = none ∧ poll x s = s) ∨
    (∃ k, s.pressed = some k ∧
      poll x s = finish (s.pc - 2) (encode (.ldVxK x)) ((s.setV x (keyByte k)).setMode .run)) := by
  unfold poll
  cases h : s.pressed with
  | none => exact .inl ⟨rfl, rfl⟩
  | some k => exact .inr ⟨k, rfl, rfl⟩

/-- Everything a step can do: the turn's agent steps in the state whose turn is taken (00_scope R5). -/
theorem step_cases (s : State) :
    (s.nextTurn = .core ∧ step s = coreStep s.takeTurn) ∨
    (s.nextTurn = .tick ∧ step s = .next (tick s.takeTurn)) ∨
    (∃ a, s.nextTurn = .host a ∧ step s = hostStep a s.takeTurn) := by
  unfold step turnStep
  cases h : s.nextTurn with
  | core => exact .inl ⟨rfl, rfl⟩
  | tick => exact .inr (.inl ⟨rfl, rfl⟩)
  | host a => exact .inr (.inr ⟨a, rfl, rfl⟩)

/-- What a host action that answers a next state can do (60_exceptions R234). -/
theorem hostStep_cases {a : HostAction} {s t : State} (h : hostStep a s = .next t) :
    t = s ∨
    (∃ bytes, a = .loadFont bytes ∧ s.mode = .idle ∧ bytes.length = fontSize ∧ t = loadFontBytes bytes s) ∨
    (∃ bytes, a = .loadRom bytes ∧ s.mode = .idle ∧ bytes.length ≤ romMax ∧ t = loadRomBytes bytes s) ∨
    (a = .start ∧ s.mode = .idle ∧ t = { s with running := true, mode := .run }) ∨
    (a = .stop ∧ t = hostStop s) ∨
    (∃ k, a = .signalPress k ∧ k < 16 ∧ t = toggleKey (BitVec.ofNat 4 k) s) := by
  cases a with
  | loadFont bytes =>
    simp only [hostStep, hostLoad, HostAction.wellFormed] at h
    split at h <;> cases h
    next hm =>
    by_cases hl : (bytes.length == fontSize) = true
    · exact .inr (.inl ⟨bytes, rfl, hm, by simpa using hl, by simp [hl]⟩)
    · exact .inl (by simp [hl])
  | loadRom bytes =>
    simp only [hostStep, hostLoad, HostAction.wellFormed] at h
    split at h <;> cases h
    next hm =>
    by_cases hl : decide (bytes.length ≤ romMax) = true
    · exact .inr (.inr (.inl ⟨bytes, rfl, hm, by simpa using hl, by simp [hl]⟩))
    · exact .inl (by simp [hl])
  | start =>
    simp only [hostStep, hostStart] at h
    split at h
    · next hm => cases h; exact .inr (.inr (.inr (.inl ⟨rfl, hm, rfl⟩)))
    · split at h <;> cases h
      exact .inl rfl
  | stop => cases h; exact .inr (.inr (.inr (.inr (.inl ⟨rfl, rfl⟩))))
  | signalPress k =>
    simp only [hostStep, hostSignal] at h
    split at h <;> cases h
    next hk => exact .inr (.inr (.inr (.inr (.inr ⟨k, rfl, hk, rfl⟩))))
  | read => cases h; exact .inl rfl

end Sys2Proof.Machine
end

