-- ==== Sys2Proof/Laws/PerInstr.lean ====
section
/-! SUPPORT. Statements made per instruction: every instruction's word matches its own row of the opcode map (30_encoding R75). -/

namespace Sys2Proof.Laws.OpcodeRow

/-- The instruction's word matches the row of the opcode map that stands for it (30_encoding R75). -/
def Statement (i : Instr) : Prop :=
  ∃ row, opcodeMap[i.row]? = some row ∧ rowMatches row (encode i) = true

theorem cls : Statement .cls := ⟨_, rfl, by decide⟩

theorem ret : Statement .ret := ⟨_, rfl, by decide⟩

theorem jp (nnn : Addr) : Statement (.jp nnn) :=
  ⟨_, rfl, (rowMatches_family _ _).2 (by rw [encode, formatNNN_toNat]; simp; omega)⟩

theorem call (nnn : Addr) : Statement (.call nnn) :=
  ⟨_, rfl, (rowMatches_family _ _).2 (by rw [encode, formatNNN_toNat]; simp; omega)⟩

theorem seImm (x : Nibble) (kk : Byte) : Statement (.seImm x kk) :=
  ⟨_, rfl, (rowMatches_family _ _).2 (by rw [encode, formatXKK_toNat]; simp; omega)⟩

theorem sneImm (x : Nibble) (kk : Byte) : Statement (.sneImm x kk) :=
  ⟨_, rfl, (rowMatches_family _ _).2 (by rw [encode, formatXKK_toNat]; simp; omega)⟩

theorem seReg (x y : Nibble) : Statement (.seReg x y) :=
  ⟨_, rfl, (rowMatches_function _ _).2 (by rw [encode, formatXYN_toNat]; simp; omega)⟩

theorem ldImm (x : Nibble) (kk : Byte) : Statement (.ldImm x kk) :=
  ⟨_, rfl, (rowMatches_family _ _).2 (by rw [encode, formatXKK_toNat]; simp; omega)⟩

theorem addImm (x : Nibble) (kk : Byte) : Statement (.addImm x kk) :=
  ⟨_, rfl, (rowMatches_family _ _).2 (by rw [encode, formatXKK_toNat]; simp; omega)⟩

theorem ldReg (x y : Nibble) : Statement (.ldReg x y) :=
  ⟨_, rfl, (rowMatches_function _ _).2 (by rw [encode, formatXYN_toNat]; simp; omega)⟩

theorem or (x y : Nibble) : Statement (.or x y) :=
  ⟨_, rfl, (rowMatches_function _ _).2 (by rw [encode, formatXYN_toNat]; simp; omega)⟩

theorem and (x y : Nibble) : Statement (.and x y) :=
  ⟨_, rfl, (rowMatches_function _ _).2 (by rw [encode, formatXYN_toNat]; simp; omega)⟩

theorem xor (x y : Nibble) : Statement (.xor x y) :=
  ⟨_, rfl, (rowMatches_function _ _).2 (by rw [encode, formatXYN_toNat]; simp; omega)⟩

theorem addReg (x y : Nibble) : Statement (.addReg x y) :=
  ⟨_, rfl, (rowMatches_function _ _).2 (by rw [encode, formatXYN_toNat]; simp; omega)⟩

theorem sub (x y : Nibble) : Statement (.sub x y) :=
  ⟨_, rfl, (rowMatches_function _ _).2 (by rw [encode, formatXYN_toNat]; simp; omega)⟩

theorem shr (x y : Nibble) : Statement (.shr x y) :=
  ⟨_, rfl, (rowMatches_function _ _).2 (by rw [encode, formatXYN_toNat]; simp; omega)⟩

theorem subn (x y : Nibble) : Statement (.subn x y) :=
  ⟨_, rfl, (rowMatches_function _ _).2 (by rw [encode, formatXYN_toNat]; simp; omega)⟩

theorem shl (x y : Nibble) : Statement (.shl x y) :=
  ⟨_, rfl, (rowMatches_function _ _).2 (by rw [encode, formatXYN_toNat]; simp; omega)⟩

theorem sneReg (x y : Nibble) : Statement (.sneReg x y) :=
  ⟨_, rfl, (rowMatches_function _ _).2 (by rw [encode, formatXYN_toNat]; simp; omega)⟩

theorem ldI (nnn : Addr) : Statement (.ldI nnn) :=
  ⟨_, rfl, (rowMatches_family _ _).2 (by rw [encode, formatNNN_toNat]; simp; omega)⟩

theorem jpV0 (nnn : Addr) : Statement (.jpV0 nnn) :=
  ⟨_, rfl, (rowMatches_family _ _).2 (by rw [encode, formatNNN_toNat]; simp; omega)⟩

theorem rnd (x : Nibble) (kk : Byte) : Statement (.rnd x kk) :=
  ⟨_, rfl, (rowMatches_family _ _).2 (by rw [encode, formatXKK_toNat]; simp; omega)⟩

theorem drw (x y n : Nibble) : Statement (.drw x y n) :=
  ⟨_, rfl, (rowMatches_family _ _).2 (by rw [encode, formatXYN_toNat]; simp; omega)⟩

theorem skp (x : Nibble) : Statement (.skp x) :=
  ⟨_, rfl, (rowMatches_byte _ _).2 (by rw [encode, formatXKK_toNat]; simp; omega)⟩

theorem sknp (x : Nibble) : Statement (.sknp x) :=
  ⟨_, rfl, (rowMatches_byte _ _).2 (by rw [encode, formatXKK_toNat]; simp; omega)⟩

theorem ldVxDt (x : Nibble) : Statement (.ldVxDt x) :=
  ⟨_, rfl, (rowMatches_byte _ _).2 (by rw [encode, formatXKK_toNat]; simp; omega)⟩

theorem ldVxK (x : Nibble) : Statement (.ldVxK x) :=
  ⟨_, rfl, (rowMatches_byte _ _).2 (by rw [encode, formatXKK_toNat]; simp; omega)⟩

theorem ldDtVx (x : Nibble) : Statement (.ldDtVx x) :=
  ⟨_, rfl, (rowMatches_byte _ _).2 (by rw [encode, formatXKK_toNat]; simp; omega)⟩

theorem ldStVx (x : Nibble) : Statement (.ldStVx x) :=
  ⟨_, rfl, (rowMatches_byte _ _).2 (by rw [encode, formatXKK_toNat]; simp; omega)⟩

theorem addI (x : Nibble) : Statement (.addI x) :=
  ⟨_, rfl, (rowMatches_byte _ _).2 (by rw [encode, formatXKK_toNat]; simp; omega)⟩

theorem ldF (x : Nibble) : Statement (.ldF x) :=
  ⟨_, rfl, (rowMatches_byte _ _).2 (by rw [encode, formatXKK_toNat]; simp; omega)⟩

theorem ldB (x : Nibble) : Statement (.ldB x) :=
  ⟨_, rfl, (rowMatches_byte _ _).2 (by rw [encode, formatXKK_toNat]; simp; omega)⟩

theorem ldMemVx (x : Nibble) : Statement (.ldMemVx x) :=
  ⟨_, rfl, (rowMatches_byte _ _).2 (by rw [encode, formatXKK_toNat]; simp; omega)⟩

theorem ldVxMem (x : Nibble) : Statement (.ldVxMem x) :=
  ⟨_, rfl, (rowMatches_byte _ _).2 (by rw [encode, formatXKK_toNat]; simp; omega)⟩

end Sys2Proof.Laws.OpcodeRow
end

