-- ==== Sys2Proof/Tests/Slice0.lean ====
section
/-! SUPPORT. The model's own tests.  Expected values come from spec/95_test_vectors (the vector's number
is in the docstring), from the encodings of spec/30_encoding R75, or from the rule named. -/

namespace Sys2Proof.Tests

open Sys2Proof.Machine

/-! ## Helpers -/

/-- A running machine at 0x200, the next turns the core's, one random byte and one key reading given. -/
def base : State :=
  { State.reset with
    mode := .run
    running := true
    inputs := { agenda := [.core], bytes := [0xA7], keys := [true], clock := 0 } }

/-- The same in strict mode. -/
def strictBase : State := { base with params := { Config.resetParams with strict := true } }

/-- The next turn is the given one. -/
def turn (t : Turn) (s : State) : State := { s with inputs := { s.inputs with agenda := [t] } }

/-- One register set. -/
def reg (x : Nibble) (b : Byte) (s : State) : State := s.setV x b

/-- The state after one step, if it is a next state. -/
def stepped (s : State) : Option State :=
  match step s with
  | .next t => some t
  | .fault _ => none
  | .refused _ => none

/-- The state after the word w is fetched and run. -/
def after (w : Nat) (s : State) : Option State := stepped (s.withFetchWord 16 w)

/-! ## WellFormed smoke: each check refuses an ill-formed term

Every term of Instr is well formed by its types; the checks are those of the host's actions. -/

/-- 79 font bytes (F3). -/
theorem test_wf_font_79 : HostAction.wellFormed (.loadFont (List.replicate 79 0)) = false := by decide
/-- 3585 ROM bytes (F4). -/
theorem test_wf_rom_3585 : HostAction.wellFormed (.loadRom (List.replicate 3585 0)) = false := by
  show decide ((List.replicate 3585 (0 : Byte)).length ≤ romMax) = false
  rw [List.length_replicate]
  decide
/-- Key 16 (60_exceptions R234). -/
theorem test_wf_key_16 : HostAction.wellFormed (.signalPress 16) = false := by decide
/-- The boundary values pass. -/
theorem test_wf_passes : HostAction.wellFormed (.loadFont (List.replicate 80 0)) = true ∧
    HostAction.wellFormed (.signalPress 15) = true ∧ Instr.wellFormed (.drw 15 15 15) = true := by decide

/-! ## Decoding: one word of each constructor, bit by bit (30_encoding R75) -/

theorem test_decode_cls : decodeWord 0b0000_0000_1110_0000 = .instr .cls := by decide
theorem test_decode_ret : decodeWord 0b0000_0000_1110_1110 = .instr .ret := by decide
theorem test_decode_jp : decodeWord 0b0001_0010_0011_0100 = .instr (.jp 0x234) := by decide
theorem test_decode_call : decodeWord 0b0010_0010_0001_0000 = .instr (.call 0x210) := by decide
theorem test_decode_seImm : decodeWord 0b0011_0010_0001_0000 = .instr (.seImm 0x2 0x10) := by decide
theorem test_decode_sneImm : decodeWord 0b0100_0010_0001_0000 = .instr (.sneImm 0x2 0x10) := by decide
theorem test_decode_seReg : decodeWord 0b0101_0001_0010_0000 = .instr (.seReg 0x1 0x2) := by decide
theorem test_decode_ldImm : decodeWord 0b0110_1010_0000_0101 = .instr (.ldImm 0xA 0x05) := by decide
theorem test_decode_addImm : decodeWord 0b0111_0001_0000_0011 = .instr (.addImm 0x1 0x03) := by decide
theorem test_decode_ldReg : decodeWord 0b1000_1010_1011_0000 = .instr (.ldReg 0xA 0xB) := by decide
theorem test_decode_or : decodeWord 0b1000_1010_1011_0001 = .instr (.or 0xA 0xB) := by decide
theorem test_decode_and : decodeWord 0b1000_1010_1011_0010 = .instr (.and 0xA 0xB) := by decide
theorem test_decode_xor : decodeWord 0b1000_1010_1011_0011 = .instr (.xor 0xA 0xB) := by decide
theorem test_decode_addReg : decodeWord 0b1000_1010_1011_0100 = .instr (.addReg 0xA 0xB) := by decide
theorem test_decode_sub : decodeWord 0b1000_1010_1011_0101 = .instr (.sub 0xA 0xB) := by decide
theorem test_decode_shr : decodeWord 0b1000_1010_1011_0110 = .instr (.shr 0xA 0xB) := by decide
theorem test_decode_subn : decodeWord 0b1000_1010_1011_0111 = .instr (.subn 0xA 0xB) := by decide
theorem test_decode_shl : decodeWord 0b1000_1010_1011_1110 = .instr (.shl 0xA 0xB) := by decide
theorem test_decode_sneReg : decodeWord 0b1001_0001_0010_0000 = .instr (.sneReg 0x1 0x2) := by decide
theorem test_decode_ldI : decodeWord 0b1010_0011_0000_0000 = .instr (.ldI 0x300) := by decide
theorem test_decode_jpV0 : decodeWord 0b1011_0011_0000_0000 = .instr (.jpV0 0x300) := by decide
theorem test_decode_rnd : decodeWord 0b1100_0011_0000_1111 = .instr (.rnd 0x3 0x0F) := by decide
theorem test_decode_drw : decodeWord 0b1101_0001_0010_0101 = .instr (.drw 0x1 0x2 0x5) := by decide
theorem test_decode_skp : decodeWord 0b1110_0001_1001_1110 = .instr (.skp 0x1) := by decide
theorem test_decode_sknp : decodeWord 0b1110_0001_1010_0001 = .instr (.sknp 0x1) := by decide
theorem test_decode_ldVxDt : decodeWord 0b1111_0001_0000_0111 = .instr (.ldVxDt 0x1) := by decide
theorem test_decode_ldVxK : decodeWord 0b1111_0010_0000_1010 = .instr (.ldVxK 0x2) := by decide
theorem test_decode_ldDtVx : decodeWord 0b1111_0000_0001_0101 = .instr (.ldDtVx 0x0) := by decide
theorem test_decode_ldStVx : decodeWord 0b1111_0001_0001_1000 = .instr (.ldStVx 0x1) := by decide
theorem test_decode_addI : decodeWord 0b1111_0010_0001_1110 = .instr (.addI 0x2) := by decide
theorem test_decode_ldF : decodeWord 0b1111_0100_0010_1001 = .instr (.ldF 0x4) := by decide
theorem test_decode_ldB : decodeWord 0b1111_0000_0011_0011 = .instr (.ldB 0x0) := by decide
theorem test_decode_ldMemVx : decodeWord 0b1111_0001_0101_0101 = .instr (.ldMemVx 0x1) := by decide
theorem test_decode_ldVxMem : decodeWord 0b1111_0010_0110_0101 = .instr (.ldVxMem 0x2) := by decide
/-- E4, E5: these words are unimplemented. -/
theorem test_decode_unimplemented :
    ([0x0000, 0x00E1, 0x0123, 0x5121, 0x9121, 0x800F, 0x8008, 0xE000, 0xF0FF, 0xF030] : List Word).all
      (fun w => decodeWord w == .unimplemented w) = true := by decide
/-- The host's view of a table row, and bytes that are no word. -/
theorem test_decode_bytes : decodeTableWord 16 0xF265 = some (.ldVxMem 2) ∧
    decodeTableWord 16 0x0000 = none ∧ decode [0x12] = .truncated ∧
    decode [0x12, 0x34, 0x56] = .instr (.jp 0x234) [0x56] := by decide

/-! ## One step of each instruction (95_test_vectors) -/

/-- D8. -/
theorem test_cls : (after 0x00E0 { base with fb := base.fb.put 3 4 true, disp := base.disp.put 3 4 true }).map
    (fun t => (t.fb, t.disp, t.out)) = some (Grid.off, Grid.off, some Grid.off) := by decide
/-- D9: CLS_CLEARS_FB false keeps FB. -/
theorem test_cls_keeps_fb : (after 0x00E0 { base with
      params := { base.params with clsClearsFb := false }
      fb := base.fb.put 3 4 true, disp := base.disp.put 3 4 true }).map
    (fun t => (t.fb.get 3 4, t.disp)) = some (true, Grid.off) := by decide
/-- C2. -/
theorem test_ret : (after 0x00EE { base with pc := 0x212, stack := [0x206] }).map
    (fun t => (t.pc, t.stack)) = some (0x206, []) := by decide
/-- C1. -/
theorem test_ret_underflow : (after 0x00EE base).map (fun t => (t.fault, t.pc, t.mode, t.running)) =
    some (some { fault := .stackUnderflow, addr := 0x200, op := some 0x00EE }, 0x202, .faulted, false) := by decide
/-- C3. -/
theorem test_jp : (after 0x1FFF base).map (fun t => (t.pc, t.mode)) = some (0xFFF, .run) := by decide
/-- C4. -/
theorem test_jp_strict_odd : (after 0x1201 strictBase).map (fun t => (t.fault, t.pc)) =
    some (some { fault := .invalidState .pcOdd, addr := 0x200, op := some 0x1201 }, 0x201) := by decide
/-- C5. -/
theorem test_call : (after 0x2210 { base with pc := 0x204 }).map (fun t => (t.pc, t.stack)) =
    some (0x210, [0x206]) := by decide
/-- C8: the overflow is checked before the odd target. -/
theorem test_call_overflow_first : (after 0x2201 { strictBase with stack := List.replicate 16 0x202 }).map
    (fun t => (t.fault, t.pc)) =
    some (some { fault := .stackOverflow 0x201, addr := 0x200, op := some 0x2201 }, 0x202) := by decide
/-- C10, C11. -/
theorem test_se_imm : (after 0x3210 (reg 2 0x10 { base with pc := 0x300 })).map (·.pc) = some 0x304 ∧
    (after 0x3210 (reg 2 0x11 { base with pc := 0x300 })).map (·.pc) = some 0x302 := by decide
/-- C12. -/
theorem test_sne_imm : (after 0x4210 (reg 2 0x11 { base with pc := 0x300 })).map (·.pc) = some 0x304 := by decide
/-- C13. -/
theorem test_se_reg : (after 0x5110 (reg 1 9 base)).map (·.pc) = some 0x204 := by decide
/-- C15. -/
theorem test_sne_reg : (after 0x9120 (reg 1 7 (reg 2 8 { base with pc := 0x300 }))).map (·.pc) = some 0x304 := by
  decide
/-- C17: the target is not reduced to 12 bits. -/
theorem test_jp_v0 : (after 0xBFFF (reg 0 0xFF base)).map (·.pc) = some 0x10FE := by decide
/-- A1. -/
theorem test_ld_imm : (after 0x6A05 base).map (fun t => (t.getV 0xA, t.pc)) = some (0x05, 0x202) := by decide
/-- A3: no carry flag. -/
theorem test_add_imm : (after 0x7001 (reg 0 0xFF (reg 0xF 9 base))).map (fun t => (t.getV 0, t.getV 0xF)) =
    some (0x00, 9) := by decide
/-- A5. -/
theorem test_ld_reg : (after 0x8010 (reg 1 0x42 base)).map (·.getV 0) = some 0x42 := by decide
/-- A6: VF is not reset. -/
theorem test_or : (after 0x8011 (reg 0 0xF0 (reg 1 0x0F (reg 0xF 5 base)))).map
    (fun t => (t.getV 0, t.getV 0xF)) = some (0xFF, 5) := by decide
/-- A7. -/
theorem test_and : (after 0x8012 (reg 0 0xF3 (reg 1 0x3F base))).map (·.getV 0) = some 0x33 := by decide
/-- A8. -/
theorem test_xor : (after 0x8003 (reg 0 0x5A base)).map (·.getV 0) = some 0x00 := by decide
/-- A9. -/
theorem test_add_reg : (after 0x8014 (reg 0 0xFF (reg 1 0x01 base))).map (fun t => (t.getV 0, t.getV 0xF)) =
    some (0x00, 1) := by decide
/-- A12: the flag overwrites the sum. -/
theorem test_add_reg_vf : (after 0x8F14 (reg 0xF 0xFF (reg 1 0x01 base))).map (·.getV 0xF) = some 1 := by decide
/-- S4. -/
theorem test_sub : (after 0x8015 (reg 0 5 (reg 1 10 base))).map (fun t => (t.getV 0, t.getV 0xF)) =
    some (251, 0) := by decide
/-- A16: the flag is written last. -/
theorem test_sub_vf : (after 0x8F15 (reg 0xF 3 (reg 1 5 base))).map (·.getV 0xF) = some 0 := by decide
/-- A20: Vy is ignored. -/
theorem test_shr : (after 0x8016 (reg 0 0x04 (reg 1 0xFF base))).map (fun t => (t.getV 0, t.getV 0xF)) =
    some (0x02, 0) := by decide
/-- A19: the shifted value overwrites the flag. -/
theorem test_shr_vf : (after 0x8F06 (reg 0xF 0x07 base)).map (·.getV 0xF) = some 0x03 := by decide
/-- A21. -/
theorem test_subn : (after 0x8017 (reg 0 5 (reg 1 10 base))).map (fun t => (t.getV 0, t.getV 0xF)) =
    some (5, 1) := by decide
/-- A22. -/
theorem test_subn_borrow : (after 0x8017 (reg 0 10 (reg 1 5 base))).map (fun t => (t.getV 0, t.getV 0xF)) =
    some (0xFB, 0) := by decide
/-- A26. -/
theorem test_shl : (after 0x801E (reg 0 0x81 base)).map (fun t => (t.getV 0, t.getV 0xF)) = some (0x02, 1) := by
  decide
/-- A27: the shifted value overwrites the flag. -/
theorem test_shl_vf : (after 0x8F0E (reg 0xF 0x81 base)).map (·.getV 0xF) = some 0x02 := by decide
/-- A30, the draw given. -/
theorem test_rnd : (after 0xC30F base).map (fun t => (t.getV 3, t.inputs.bytes)) = some (0x07, []) := by decide
/-- M1. -/
theorem test_ld_i : (after 0xA300 base).map (·.i) = some 0x300 := by decide
/-- M3. -/
theorem test_add_i : (after 0xF01E (reg 0 1 { base with i := 0xFFE })).map (·.i) = some 0xFFF := by decide
/-- M4. -/
theorem test_add_i_fault : (after 0xF01E (reg 0 1 { base with i := 0xFFF })).map (fun t => (t.fault, t.i)) =
    some (some { fault := .indexOutOfRange 0x1000, addr := 0x200, op := some 0xF01E }, 0xFFF) := by decide
/-- M6: the full 8-bit Vx. -/
theorem test_ld_f : (after 0xF029 (reg 0 0xFF base)).map (·.i) = some 0x4FB := by decide
/-- S9. -/
theorem test_ld_b : (after 0xF033 (reg 0 254 { base with i := 0x300 })).map
    (fun t => (t.byteAt 0x300, t.byteAt 0x301, t.byteAt 0x302, t.i)) = some (2, 5, 4, 0x300) := by decide
/-- M10. -/
theorem test_ld_b_top : (after 0xF033 (reg 0 9 { base with i := 0xFFE })).map (·.fault) =
    some (some { fault := .memOutOfRange 0x1000, addr := 0x200, op := some 0xF033 }) := by decide
/-- M11. -/
theorem test_ld_mem_vx : (after 0xF155 (reg 0 1 (reg 1 2 { base with i := 0x300 }))).map
    (fun t => (t.byteAt 0x300, t.byteAt 0x301, t.byteAt 0x302, t.i)) = some (1, 2, 0, 0x302) := by decide
/-- M13. -/
theorem test_ld_mem_vx_index : (after 0xF155 (reg 0 1 (reg 1 2 { base with i := 0xFFE }))).map
    (fun t => (t.fault, t.i)) =
    some (some { fault := .indexOutOfRange 0x1000, addr := 0x200, op := some 0xF155 }, 0xFFE) := by decide
/-- M15. -/
theorem test_ld_vx_mem : (after 0xF265 { base with i := 0x300, mem := [(0x300, 2), (0x301, 5), (0x302, 4)] }).map
    (fun t => (t.getV 0, t.getV 1, t.getV 2, t.i)) = some (2, 5, 4, 0x303) := by decide
/-- M14's address, read: the first address outside memory. -/
theorem test_ld_vx_mem_top : (after 0xF265 { base with i := 0xFFE }).map (fun t => (t.fault, t.i)) =
    some (some { fault := .memOutOfRange 0x1000, addr := 0x200, op := some 0xF265 }, 0xFFE) := by decide
/-- D2: the right edge wraps to columns 0 to 5 of the same row; D5: VF as a coordinate is read before it
is reset; D6 with Disp other than FB: DisplayUpdate is still made (log entry 22). -/
theorem test_drw :
    (after 0xD011 (reg 0 62 { base with i := 0x300, mem := [(0x300, 0xFF)] })).map
      (fun t => ((List.range 64).filter (fun px => t.fb.get px 0), t.getV 0xF)) =
      some ([0, 1, 2, 3, 4, 5, 62, 63], 0) ∧
    (after 0xDF11 (reg 0xF 10 (reg 1 3 { base with i := 0x300, mem := [(0x300, 0x80)] }))).map
      (fun t => (t.fb.get 10 3, t.getV 0xF, t.disp.get 10 3)) = some (true, 0, true) ∧
    (after 0xD010 (reg 0xF 1 { base with fb := Grid.off.put 0 0 true })).map
      (fun t => (t.fb.get 0 0, t.disp.get 0 0, t.getV 0xF)) = some (true, true, 0) := by decide
/-- S6: the second draw collides; R177 against R178's wording (log entry 19): over a pixel that was on
before the first, it does not. -/
theorem test_drw_twice :
    ((after 0xD011 { base with i := 0x300, mem := [(0x300, 0x80)] }).bind (after 0xD011)).map
      (fun t => (t.fb, t.getV 0xF)) = some (Grid.off, 1) ∧
    ((after 0xD011 { base with i := 0x300, mem := [(0x300, 0x80)], fb := Grid.off.put 0 0 true }).bind
      (after 0xD011)).map (fun t => (t.fb.get 0 0, t.getV 0xF)) = some (true, 0) := by decide
/-- K1. -/
theorem test_skp : (after 0xE19E (reg 1 3 base)).map (·.pc) = some 0x204 := by decide
/-- K3. -/
theorem test_skp_range : (after 0xE19E (reg 1 0x10 base)).map (·.fault) =
    some (some { fault := .keyOutOfRange 0x10, addr := 0x200, op := some 0xE19E }) := by decide
/-- K2. -/
theorem test_sknp : (after 0xE1A1 (reg 1 3 base)).map (·.pc) = some 0x202 := by decide
/-- K4. -/
theorem test_ld_vx_dt : (after 0xFF07 { base with dt := 0x20 }).map (·.getV 0xF) = some 0x20 := by decide
/-- K9. -/
theorem test_ld_vx_k : (after 0xF20A { base with pressed := some 7 }).map
    (fun t => (t.getV 2, t.mode, t.pressed)) = some (7, .run, some 7) := by decide
/-- K5: the wait publishes nothing. -/
theorem test_ld_vx_k_waits : (after 0xF00A (reg 0 9 base)).map
    (fun t => (t.mode, t.getV 0, t.pc, t.out.isNone)) = some (.awaitKey 0, 9, 0x202, true) := by decide
/-- K10. -/
theorem test_ld_dt_vx : (after 0xF015 (reg 0 60 base)).map (·.dt) = some 60 := by decide
/-- K11. -/
theorem test_ld_st_vx : (after 0xF118 (reg 1 2 base)).map (·.st) = some 2 := by decide

/-! ## The cycle, the agents and the host (95_test_vectors) -/

/-- E1: fetch is big-endian. -/
theorem test_fetch_big_endian : (stepped { base with mem := [(0x200, 0x12), (0x201, 0x34)] }).map (·.pc) =
    some 0x234 := by decide
/-- E4: PC is advanced, the opcode recorded. -/
theorem test_unimplemented : (after 0x00E1 base).map (fun t => (t.fault, t.pc)) =
    some (some { fault := .unimplementedOpcode 0x00E1, addr := 0x200, op := some 0x00E1 }, 0x202) := by decide
/-- The recorded fault's code and name (60 R211). -/
theorem test_fault_code_and_name :
    ((after 0x00EE base).bind (·.fault)).map (fun r => (r.fault.code, r.fault.name)) = some (3, "StackUnderflow") ∧
    ((after 0x00E1 base).bind (·.fault)).map (fun r => (r.fault.code, r.fault.name)) = some (5, "UnimplementedOpcode") := by
  decide
/-- E6: the second byte is past memory. -/
theorem test_fetch_second_byte : (stepped { base with pc := 0xFFF }).map (fun t => (t.fault, t.pc)) =
    some (some { fault := .memOutOfRange 0x1000, addr := 0xFFF, op := none }, 0xFFF) := by decide
/-- E8: the pre-execute validation stops the instruction. -/
theorem test_strict_pre : (after 0x6007 { strictBase with pc := 0xFFE }).map (fun t => (t.fault, t.getV 0)) =
    some (some { fault := .invalidState .pcRange, addr := 0xFFE, op := some 0x6007 }, 0) := by decide
/-- E9: an odd fetch outside strict mode. -/
theorem test_odd_fetch : (after 0x6007 { base with pc := 0x201 }).map (fun t => (t.getV 0, t.pc)) =
    some (7, 0x203) := by decide
/-- K7: the poll takes the key and completes the cycle. -/
theorem test_poll : (stepped { base with mode := .awaitKey 0, pc := 0x202, pressed := some 4 }).map
    (fun t => (t.getV 0, t.mode, t.pressed, t.out.isSome)) = some (4, .run, some 4, true) := by decide
/-- K8. -/
theorem test_stop_while_waiting : (stepped { base with mode := .awaitKey 0, running := false }).map (·.mode) =
    some .stopped := by decide
/-- K12, one tick of it. -/
theorem test_tick : (stepped (turn .tick { base with dt := 5, st := 0 })).map (fun t => (t.dt, t.st)) =
    some (4, 0) := by decide
/-- K14: the toggle. -/
theorem test_signal_press :
    (stepped (turn (.host (.signalPress 5)) { base with pressed := some 3 })).map (·.pressed) = some none := by
  decide
/-- F2. -/
theorem test_build : State.reset.pc = 0x200 ∧ State.reset.stack = [] ∧ State.reset.mode = .idle ∧
    State.reset.running = false ∧ State.reset.pressed = none ∧ State.reset.fault = none := by decide
/-- F3. -/
theorem test_load_font_79 : loadErrorReported (.loadFont (List.replicate 79 1)) = true ∧
    (stepped (turn (.host (.loadFont (List.replicate 79 1))) State.reset)).map (fun t => (t.mem, t.mode)) =
    some ([], .idle) := by decide
/-- loadRom writes from 0x200 up (70_reset R253). -/
theorem test_load_rom : (stepped (turn (.host (.loadRom [0x6A, 0x05])) State.reset)).map (·.mem) =
    some [(0x200, 0x6A), (0x201, 0x05)] := by decide
/-- F6. -/
theorem test_start_again : (stepped (turn (.host .start) base)).map (·.mode) = some .run := by decide
/-- A write of what an unlisted cell holds removes the entry; the canonical form stays. -/
theorem test_memory_canonical : Mem.write [(3, 7), (5, 9)] 5 0 = [(3, 7)] ∧
    Mem.wf (Mem.write [(3, 7), (5, 9)] 4 1) = true ∧ Mem.wf [(5, 9), (3, 7)] = false ∧
    Mem.wf [(3, 0)] = false ∧ Mem.wf [(4096, 1)] = false := by decide

/-! ## Witnesses: states and operands that meet the hypotheses of each statement, clause by clause

A witness is named after its statement.  A statement without hypotheses has none. -/

/-- A cycle's state at the given pc, with the given memory. -/
def at_ (pc : Word) (mem : Mem) : State := { base with pc := pc, mem := mem }

theorem test_witness_DecodedWordReencodes : decodeWord 0xFF65 = .instr (.ldVxMem 0xF) ∧
    decodeWord 0x00E0 = .instr .cls := by decide
theorem test_witness_DecoderFollowsOpcodeMap : decodeWord 0x9FF0 = .instr (.sneReg 0xF 0xF) ∧
    decodeWord 0xFFFF = .unimplemented 0xFFFF ∧ ∀ row ∈ opcodeMap, rowMatches row 0xFFFF = false :=
  ⟨by decide, by decide, by simp [opcodeMap, rowMatches]⟩
theorem test_witness_OpcodeRowsAreDisjoint : opcodeMap[33]? = some (0xF0FF, 0xF065) ∧
    rowMatches (0xF0FF, 0xF065) 0xFF65 = true ∧ opcodeMap[0]? = some (0xFFFF, 0x00E0) ∧
    rowMatches (0xFFFF, 0x00E0) 0x00E0 = true := by decide
theorem test_witness_StepRunsDecodedInstruction : AtCycle (at_ 0xFFE [(0xFFE, 0x12)]) ∧
    (at_ 0xFFE [(0xFFE, 0x12)]).pc.toNat + 1 < 4096 ∧
    (0x1200 : Word) = wordOfBytes ((at_ 0xFFE [(0xFFE, 0x12)]).byteAt 0xFFE) ((at_ 0xFFE [(0xFFE, 0x12)]).byteAt 0xFFF) ∧
    strictFailure (advance (at_ 0xFFE [(0xFFE, 0x12)]).takeTurn) = none ∧
    decodeWord 0x1200 = .instr (.jp 0x200) ∧ (Instr.jp 0x200).wellFormed = true :=
  ⟨⟨rfl, rfl, rfl⟩, by decide, by decide, by decide, by decide, rfl⟩
theorem test_witness_FetchReadsWordOrFaults : (at_ 0xFFE []).pc.toNat + 1 < 4096 ∧
    (AtCycle (at_ 0x1000 []) ∧ 4096 ≤ (at_ 0x1000 []).pc.toNat) ∧
    (AtCycle (at_ 0xFFF []) ∧ (at_ 0xFFF []).pc.toNat = 4095) :=
  ⟨by decide, ⟨⟨rfl, rfl, rfl⟩, by decide⟩, ⟨rfl, rfl, rfl⟩, by decide⟩
theorem test_witness_UnimplementedWordFaults : AtCycle strictBase ∧ fetch strictBase = .ok 0x0000 ∧
    (∀ row ∈ opcodeMap, rowMatches row 0x0000 = false) ∧ strictFailure (advance strictBase.takeTurn) = none ∧
    strictFailure (advance (State.takeTurn { strictBase with pc := 0xFFE })) = some .pcRange :=
  ⟨⟨rfl, rfl, rfl⟩, rfl, by simp [opcodeMap, rowMatches], by decide, by decide⟩
theorem test_witness_ValidityChecksItemsInOrder : firstInvalid { base with pc := 0xFFE, stack := List.replicate 16 0x200 } = none ∧
    firstInvalid (at_ 0xFFF []) = some .pcOdd ∧ firstInvalid (at_ 0x1000 []) = some .pcRange ∧
    firstInvalid (at_ 0x1FE []) = some .pcRange ∧
    firstInvalid { base with stack := List.replicate 17 0x200 } = some .stackDepth ∧
    firstInvalid { base with stack := [0x200, 0x1000] } = some .stackEntry := by decide
theorem test_witness_StrictModeValidatesAroundInstruction :
    (AtCycle { strictBase with pc := 0xFFE } ∧ fetch { strictBase with pc := 0xFFE } = .ok 0x0000 ∧
      firstInvalid (advance (State.takeTurn { strictBase with pc := 0xFFE })) = some .pcRange) ∧
    (Executes { strictBase with mem := [(0x200, 0x11), (0x201, 0xFE)] } (.jp 0x1FE) ∧
      firstInvalid (advance (State.takeTurn { strictBase with mem := [(0x200, 0x11), (0x201, 0xFE)] })) = none ∧
      ∃ t, exec (.jp 0x1FE) (advance (State.takeTurn { strictBase with mem := [(0x200, 0x11), (0x201, 0xFE)] })) = .next t ∧
        t.mode = .run ∧ firstInvalid t = some .pcRange) ∧
    (Executes { strictBase with mem := [(0x200, 0x1F), (0x201, 0xFE)] } (.jp 0xFFE) ∧
      firstInvalid (advance (State.takeTurn { strictBase with mem := [(0x200, 0x1F), (0x201, 0xFE)] })) = none ∧
      ∃ t, exec (.jp 0xFFE) (advance (State.takeTurn { strictBase with mem := [(0x200, 0x1F), (0x201, 0xFE)] })) = .next t ∧
        t.mode = .run ∧ firstInvalid t = none) ∧
    (Executes (at_ 0xFFE [(0xFFE, 0x12)]) (.jp 0x200) ∧ (at_ 0xFFE [(0xFFE, 0x12)]).params.strict = false ∧
      ∃ t, exec (.jp 0x200) (advance (at_ 0xFFE [(0xFFE, 0x12)]).takeTurn) = .next t ∧ t.mode = .run) :=
  ⟨⟨⟨rfl, rfl, rfl⟩, rfl, by decide⟩,
   ⟨⟨⟨rfl, rfl, rfl⟩, 0x11FE, rfl, by decide⟩, by decide, _, rfl, rfl, by decide⟩,
   ⟨⟨⟨rfl, rfl, rfl⟩, 0x1FFE, rfl, by decide⟩, by decide, _, rfl, rfl, by decide⟩,
   ⟨⟨rfl, rfl, rfl⟩, 0x1200, rfl, by decide⟩, rfl, _, rfl, rfl⟩
theorem test_witness_CompletedCyclePublishes :
    (AtCycle (at_ 0xFFE [(0xFFE, 0x12)]) ∧ ∃ t, step (at_ 0xFFE [(0xFFE, 0x12)]) = .next t ∧ t.mode = .run) ∧
    (AtCycle (at_ 0xFFF []) ∧ ∃ t, step (at_ 0xFFF []) = .next t ∧ t.mode = .faulted) ∧
    (AtCycle (at_ 0x200 [(0x200, 0xFF), (0x201, 0x0A)]) ∧
      ∃ t, step (at_ 0x200 [(0x200, 0xFF), (0x201, 0x0A)]) = .next t ∧ t.mode = .awaitKey 0xF) :=
  ⟨⟨⟨rfl, rfl, rfl⟩, _, rfl, rfl⟩, ⟨⟨rfl, rfl, rfl⟩, _, rfl, rfl⟩, ⟨rfl, rfl, rfl⟩, _, rfl, rfl⟩
theorem test_witness_TurnsComeFromTheGivenOrTheSchedule : base.inputs.agenda = .core :: [] ∧
    State.reset.inputs.agenda = [] := by decide
theorem test_witness_CoreStopsWhenNotRunning :
    ({ base with running := false }.nextTurn = .core ∧ { base with running := false }.mode = .run) ∧
    ({ base with mode := .awaitKey 0xF, running := false }.nextTurn = .core) := by decide
theorem test_witness_AgentWithoutStepPassesItsTurn :
    ({ base with mode := .idle }.nextTurn = .core ∧ { base with mode := .stopped }.nextTurn = .core ∧
      { base with mode := .faulted }.nextTurn = .core) ∧
    (turn .tick State.reset).nextTurn = .tick ∧ (turn .tick State.reset).running = false := by decide
theorem test_witness_PollCompletesKeyWait :
    ({ base with mode := .awaitKey 0xF }.nextTurn = .core ∧ { base with mode := .awaitKey 0xF }.running = true ∧
      { base with mode := .awaitKey 0xF }.pressed = none) ∧
    ({ base with mode := .awaitKey 0xF, pressed := some 0xF }.params.strict = false) ∧
    firstInvalid { strictBase with mode := .awaitKey 0xF, pressed := some 0xF } = none ∧
    firstInvalid { strictBase with mode := .awaitKey 0xF, pressed := some 0xF, pc := 0x1000 } = some .pcRange := by
  decide
theorem test_witness_FaultEntryRecordsInstruction :
    (∃ t, fetch base = .ok 0x0000 ∧ step base = .next t ∧ t.mode = .faulted) ∧
    (∃ t, fetch (at_ 0xFFF []) = .error (.memOutOfRange 4096) ∧ step (at_ 0xFFF []) = .next t ∧ t.mode = .faulted) ∧
    (∃ t, step { strictBase with mode := .awaitKey 0, pressed := some 0, pc := 0x1000 } = .next t ∧ t.mode = .faulted) :=
  ⟨⟨_, rfl, rfl, rfl⟩, ⟨_, rfl, rfl, rfl⟩, ⟨_, rfl, rfl⟩⟩
theorem test_witness_StepKeepsMemoryCanonical : MemInv (at_ 0x200 [(0x200, 0xF0), (0x201, 0x33), (0xFFF, 0xFF)]) ∧
    ∃ t, step (at_ 0x200 [(0x200, 0xF0), (0x201, 0x33), (0xFFF, 0xFF)]) = .next t := ⟨rfl, _, rfl⟩
theorem test_witness_StepKeepsPcAndStackBounds : PcInv { base with pc := 0x10FE, stack := List.replicate 16 0x1000 } ∧
    ∃ t, step { base with pc := 0x10FE, stack := List.replicate 16 0x1000 } = .next t :=
  ⟨⟨by decide, by decide, fun _ he => by rw [List.eq_of_mem_replicate he]; decide⟩, _, rfl⟩
theorem test_witness_StepKeepsModeAndFaultConsistent : ModeInv base ∧ ∃ t, step base = .next t :=
  ⟨⟨by decide, fun _ => .inl rfl⟩, _, rfl⟩
theorem test_witness_StepKeepsStrictValidity : StrictInv { strictBase with pc := 0xFFE } ∧
    { strictBase with pc := 0xFFE }.params.strict = true ∧ AtCycle { strictBase with pc := 0xFFE } ∧
    ∃ t, step { strictBase with pc := 0xFFE } = .next t :=
  ⟨fun _ _ => by decide, rfl, ⟨rfl, rfl, rfl⟩, _, rfl⟩
theorem test_witness_BuiltMachineMeetsInvariants : Init.zero.mem.wf = true ∧
    { Init.zero with mem := [(0xFFF, 0xFF)] }.mem.wf = true := by decide
theorem test_witness_OnlyStoresAndLoadsChangeMemory :
    (after 0xF055 (reg 0 1 { base with i := 0xFFE })).map (·.byteAt 0xFFE) = some 1 ∧
    (stepped (turn (.host (.loadRom [1])) State.reset)).map (·.byteAt 0x200) = some 1 := by decide
theorem test_witness_EachStatePieceHasItsWriters :
    (after 0xA300 base).map (fun t => t.i != base.i) = some true ∧
    (after 0x2200 base).map (fun t => t.stack != base.stack) = some true ∧
    (after 0xD001 { base with mem := [(0, 0x80)] }).map (fun t => t.fb.get 0 0 != base.fb.get 0 0) = some true ∧
    (after 0xF015 (reg 0 1 base)).map (fun t => t.dt != base.dt) = some true ∧
    (after 0xF018 (reg 0 1 base)).map (fun t => t.st != base.st) = some true ∧
    (stepped (turn (.host (.signalPress 0)) base)).map (fun t => t.pressed != base.pressed) = some true := by decide
theorem test_witness_EndedRunNeverResumes :
    (∃ t, step { base with mode := .stopped } = .next t) ∧ (∃ t, step { base with mode := .faulted } = .next t) ∧
    (∃ t, step { base with running := false } = .next t ∧ { base with running := false }.mode ≠ .idle) :=
  ⟨⟨_, rfl⟩, ⟨_, rfl⟩, _, rfl, by decide⟩
theorem test_witness_TickCountsBothDown : (turn .tick base).nextTurn = .tick ∧ (turn .tick base).running = true ∧
    (turn .tick State.reset).nextTurn = .tick ∧ (turn .tick State.reset).running = false := by decide
theorem test_witness_ManyTicksRunTheCountersDown : { base with dt := 255, st := 0 }.running = true := by decide
theorem test_witness_LoadFontFillsFirstEightyCells :
    ((turn (.host (.loadFont (List.replicate 80 0xFF))) State.reset).nextTurn = .host (.loadFont (List.replicate 80 0xFF)) ∧
      State.reset.mode = .idle ∧ (List.replicate 80 (0xFF : Byte)).length = 80 ∧ MemInv State.reset) ∧
    (List.replicate 79 (0xFF : Byte)).length ≠ 80 ∧ (List.replicate 81 (0xFF : Byte)).length ≠ 80 ∧
    (turn (.host (.loadFont [])) base).mode ≠ .idle :=
  ⟨⟨rfl, rfl, rfl, rfl⟩, by decide, by decide, by decide⟩
theorem test_witness_LoadRomFillsFromEntryPoint :
    (∀ bytes, (turn (.host (.loadRom bytes)) State.reset).nextTurn = .host (.loadRom bytes)) ∧
    State.reset.mode = .idle ∧ MemInv State.reset ∧ (List.replicate 3584 (0xFF : Byte)).length ≤ 3584 ∧
    3584 < (List.replicate 3585 (0xFF : Byte)).length ∧ (turn (.host (.loadRom [])) base).mode ≠ .idle :=
  ⟨fun _ => rfl, rfl, rfl, by rw [List.length_replicate], by rw [List.length_replicate]; decide, by decide⟩
theorem test_witness_SignalPressToggles : (turn (.host (.signalPress 15)) base).nextTurn = .host (.signalPress 15) ∧
    base.pressed = none ∧ { base with pressed := some 0 }.pressed ≠ none ∧
    (turn (.host (.signalPress 16)) base).nextTurn = .host (.signalPress 16) := by decide
theorem test_witness_HostStartsStopsAndReads :
    ((turn (.host .start) State.reset).nextTurn = .host .start ∧ State.reset.mode = .idle) ∧
    ((turn (.host .start) base).nextTurn = .host .start ∧ base.mode ≠ .idle ∧ base.running = true) ∧
    ((turn (.host .start) { base with running := false }).mode ≠ .idle) ∧
    (turn (.host .stop) base).nextTurn = .host .stop ∧ (turn (.host .read) base).nextTurn = .host .read := by decide
theorem test_witness_BootLoadsAndStarts : Init.zero.mem.wf = true ∧ (List.replicate 3584 (0xFF : Byte)).length ≤ 3584 :=
  ⟨rfl, by rw [List.length_replicate]⟩
theorem test_witness_MemoryPrimitivesCheckBounds : 4095 < 4096 ∧ 4096 ≤ 4096 ∧ MemInv base := ⟨by decide, by decide, rfl⟩
theorem test_witness_RetPopsPc :
    ({ strictBase with stack := [0xFFE, 0x201] }.stack = [0xFFE] ++ [0x201] ∧ strictBase.params.strict = true ∧
      strictBase.mode = .run ∧ isOdd 0x201 = true) ∧
    firstInvalid { strictBase with stack := [0xFFE] } = none ∧
    (isOdd 0x1000 = false ∧ strictRange 0x1000 = false ∧ { strictBase with stack := [0x1000] }.stack = [] ++ [0x1000]) ∧
    base.stack = [] := by decide
theorem test_witness_JpSetsPc : strictBase.params.strict = true ∧ strictBase.mode = .run ∧
    (0xFFF : Addr).toNat % 2 = 1 ∧ (0x1FE : Addr).toNat % 2 = 0 ∧ (0x1FE : Addr).toNat < 0x200 ∧
    (0xFFE : Addr).toNat < 0xFFF ∧ (0xFFF : Addr).toNat = 0xFFF ∧ base.params.strict = false ∧ base.mode = .run := by
  decide
theorem test_witness_CallPushesAndJumps :
    ({ base with stack := List.replicate 15 0x202 }.stack.length < 16 ∧ ¬(base.params.strict = true ∧ (0xFFF : Addr).toNat % 2 = 1)) ∧
    (¬(strictBase.params.strict = true ∧ (0x1FE : Addr).toNat % 2 = 1) ∧ strictBase.mode = .run ∧ (0x1FE : Addr).toNat < 0x200) ∧
    16 ≤ { base with stack := List.replicate 16 0x202 }.stack.length ∧
    (strictBase.stack.length < 16 ∧ strictBase.params.strict = true ∧ (0xFFF : Addr).toNat % 2 = 1) := by decide
theorem test_witness_ReturnUndoesCall : { strictBase with stack := List.replicate 15 0x202 }.stack.length < 16 ∧
    ¬(strictBase.params.strict = true ∧ (0xFFE : Addr).toNat % 2 = 1) ∧
    ∃ t, exec (.call 0xFFE) strictBase = .next t ∧ { base with stack := t.stack }.stack = t.stack :=
  ⟨by decide, by decide, _, rfl, rfl⟩
theorem test_witness_SkipsOnImmediate : (reg 0xF 0xFF base).getV 0xF = 0xFF ∧ base.getV 0xF ≠ 0xFF := by decide
theorem test_witness_SkipsOnRegisters : (0xF : Nibble) ≠ 0 ∧ base.getV 0 = base.getV 0xF ∧
    (reg 0xF 1 base).getV 0 ≠ (reg 0xF 1 base).getV 0xF := by decide
theorem test_witness_JpV0AddsOffset :
    (∃ t, exec (.jpV0 0xF00) (reg 0 0xFF base) = .next t ∧ t.nextTurn = .core ∧ t.mode = .run ∧ t.running = true ∧
      0xFFF ≤ t.pc.toNat ∧ ∃ u, step t = .next u) ∧
    (∃ t, exec (.jpV0 0xFFF) (reg 0 0 strictBase) = .next t ∧ t.pc.toNat % 2 = 1) ∧
    (∃ t, exec (.jpV0 0x1FE) (reg 0 0 strictBase) = .next t ∧ t.pc.toNat % 2 = 0 ∧ t.pc.toNat < 0x200) ∧
    (∃ t, exec (.jpV0 0xFFF) (reg 0 1 strictBase) = .next t ∧ t.pc.toNat % 2 = 0 ∧ 0xFFE < t.pc.toNat) :=
  ⟨⟨_, rfl, rfl, rfl, rfl, by decide, _, rfl⟩, ⟨_, rfl, by decide⟩, ⟨_, rfl, by decide, by decide⟩,
   _, rfl, by decide, by decide⟩
theorem test_witness_AddRegSetsCarry : (0xE : Nibble) ≠ 0xF ∧
    ((reg 0xE 0x80 base).getV 0xE).toNat + ((reg 0xE 0x80 base).getV 0xE).toNat > 255 := by decide
theorem test_witness_SubtractsSetNoBorrow : (0xE : Nibble) ≠ 0xF ∧
    (base.getV 0xE).toNat ≥ (base.getV 0).toNat ∧ ¬(base.getV 0).toNat ≥ ((reg 1 1 base).getV 1).toNat := by decide
theorem test_witness_ShiftsKeepResultOverFlag : (0xE : Nibble) ≠ 0xF := by decide
theorem test_witness_RndMasksAFreshDraw : base.inputs.bytes = 0xA7 :: [] ∧ State.reset.inputs.bytes = [] := by decide
theorem test_witness_AddIAddsOrFaults :
    (State.i { base with i := 0xFFF }).toNat + (base.getV 0xF).toNat < 4096 ∧
    4096 ≤ (reg 0xF 1 { base with i := 0xFFF }).i.toNat + ((reg 0xF 1 { base with i := 0xFFF }).getV 0xF).toNat := by decide
theorem test_witness_LdBStoresDecimalDigits : MemInv { base with i := 0xFFD } ∧
    (State.i { base with i := 0xFFD }).toNat + 2 < 4096 ∧ 4096 ≤ (State.i { base with i := 0xFFE }).toNat + 2 :=
  ⟨rfl, by decide, by decide⟩
theorem test_witness_LdMemVxStoresRegisters : MemInv { base with i := 0xFEF } ∧
    (State.i { base with i := 0xFEF }).toNat + (0xF : Nibble).toNat + 1 < 4096 ∧
    4096 ≤ (State.i { base with i := 0xFF1 }).toNat + (0xF : Nibble).toNat ∧
    (State.i { base with i := 0xFF0 }).toNat + (0xF : Nibble).toNat = 4095 :=
  ⟨rfl, by decide, by decide, by decide⟩
theorem test_witness_LdVxMemLoadsRegisters :
    (State.i { base with i := 0xFFE }).toNat + (0x0 : Nibble).toNat + 1 < 4096 ∧
    4096 ≤ (State.i { base with i := 0xFFF }).toNat + (0x1 : Nibble).toNat ∧
    (State.i { base with i := 0xFFF }).toNat + (0x0 : Nibble).toNat = 4095 := by decide
theorem test_witness_LoadRestoresStoredRegisters : MemInv { base with i := 0xFEF } ∧
    (State.i { base with i := 0xFEF }).toNat + (0xF : Nibble).toNat + 1 < 4096 ∧
    ∃ t, exec (.ldMemVx 0xF) { base with i := 0xFEF } = .next t ∧ { base with mem := t.mem, i := 0xFEF }.i = 0xFEF :=
  ⟨rfl, by decide, _, rfl, rfl⟩
theorem test_witness_ClsClearsDisplay : base.params.clsClearsFb = true ∧
    { base with params := { base.params with clsClearsFb := false } }.params.clsClearsFb = false ∧ base.mode = .run ∧
    strictFailure base = none := by decide
theorem test_witness_DrwXorsSpriteImage : indexed { base with i := 0xFF1 } (0xF : Nibble).toNat ≤ 4096 ∧
    4096 < indexed { base with i := 0xFF2 } (0xF : Nibble).toNat ∧
    (spriteCovers { base with mem := [(0, 0x80)] } 0 0 1 0 0 = true ∧ (Grid.off.put 0 0 true).get 0 0 = true) ∧
    (∀ px py, spriteCovers base 0 0 0 px py = false) ∧ base.disp = Grid.off ∧ Grid.off.put 0 0 true ≠ base.disp :=
  ⟨by decide, by decide, by decide, fun _ _ => rfl, rfl, by decide⟩
theorem test_witness_SecondDrawRestoresFramebuffer : indexed { base with i := 0xFFF, mem := [(0xFFF, 0x80)] } (1 : Nibble).toNat ≤ 4096 ∧
    (∃ t, exec (.drw 0 0 1) { base with i := 0xFFF, mem := [(0xFFF, 0x80)] } = .next t ∧ t.getV 0xF = 0 ∧
      spriteBit (State.byteAt { base with i := 0xFFF, mem := [(0xFFF, 0x80)] } 0xFFF) 0 = true ∧
      { base with i := 0xFFF, mem := [(0xFFF, 0x80)], fb := t.fb }.fb = t.fb) ∧
    base.fb.get 0 0 = false ∧ spriteCovers { base with i := 0xFFF, mem := [(0xFFF, 0x80)] } 0 0 1 0 0 = true ∧
    ∀ px py, spriteCovers base 0 0 0 px py = false :=
  ⟨by decide, ⟨_, rfl, by decide, by decide, rfl⟩, by decide, by decide, fun _ _ => rfl⟩
theorem test_witness_KeySkipsReadTheInput : ((reg 1 15 base).getV 1).toNat = (15 : Nibble).toNat ∧
    base.nextKey 15 = true ∧ { base with inputs := { base.inputs with keys := [false] } }.nextKey 15 = false ∧
    base.inputs.keys = true :: [] ∧ State.reset.inputs.keys = [] ∧ 15 < ((reg 1 16 base).getV 1).toNat := by decide
theorem test_witness_LdVxKTakesKeyOrWaits : { base with pressed := some 0xF }.pressed = some 0xF ∧ base.pressed = none := by
  decide

end Sys2Proof.Tests
end

section
/-! PROOFS, 00_scope. Whose turn it is, and what taking a turn does to each of the inputs (R5, R13). -/

namespace Sys2Proof.Machine

/-- Taking a turn consumes the first given one, if any (log entry 5). -/
@[simp] theorem takeTurn_agenda (s : State) : s.takeTurn.inputs.agenda = s.inputs.agenda.tail := rfl

/-- The count of inputs taken goes up by the turn. -/
@[simp] theorem takeTurn_clock (s : State) : s.takeTurn.inputs.clock = s.inputs.clock + 1 := rfl

@[simp] theorem takeTurn_bytes (s : State) : s.takeTurn.inputs.bytes = s.inputs.bytes := rfl

@[simp] theorem takeTurn_keys (s : State) : s.takeTurn.inputs.keys = s.inputs.keys := rfl

/-- The frame of a taken turn: no simp lemma, since its right side holds its left. -/
theorem takeTurn_changes_inputs_only (s : State) : s.takeTurn = { s with inputs := s.takeTurn.inputs } := rfl

/-- Settles O12: by whether turns are given, from the laws of `nextTurn` and of the taken turn's inputs. -/
theorem turnsComeFromTheGivenOrTheSchedule : Obligations.TurnsComeFromTheGivenOrTheSchedule := by
  intro s
  have given : ∀ u rest, s.inputs.agenda = u :: rest →
      s.nextTurn = u ∧ s.takeTurn.inputs.agenda = rest := by
    intro u rest h
    exact ⟨nextTurn_given s u rest h, by rw [takeTurn_agenda, h, List.tail_cons]⟩
  have free : s.inputs.agenda = [] →
      s.nextTurn = Config.schedule s.inputs.clock ∧ s.takeTurn.inputs.agenda = [] := by
    intro h
    exact ⟨nextTurn_free s h, by rw [takeTurn_agenda, h, List.tail_nil]⟩
  exact ⟨given, free, takeTurn_changes_inputs_only s, takeTurn_clock s, takeTurn_bytes s, takeTurn_keys s⟩

end Sys2Proof.Machine
end

section
/-! PROOFS, 10_state. What a step can do to the whole machine: how a cycle ends, and one inversion lemma
per step (40_cycle R90 to R100, 60_exceptions R221, R227, R234). -/

namespace Sys2Proof.Machine

/-- How a step of the core leaves the state u it has reached: as it is, by fault entry, or published
(40_cycle R97, R100; 60_exceptions R221). -/
inductive Closes (u : State) : State → Prop where
  | asIs : Closes u u
  | fault (f : Fault) (a : Word) (op : Option Word) : Closes u (takeFault f a op u)
  | published : Closes u (publish u)

theorem finish_closes (a op : Word) (u : State) : Closes u (finish a op u) := by
  rcases finish_cases a op u with ⟨r, _, e⟩ | ⟨_, e⟩ <;> rw [e]
  · exact .fault ..
  · exact .published

theorem endCycle_closes (a op : Word) (u : State) : Closes u (endCycle a op u) := by
  unfold endCycle
  split
  · exact .asIs
  · exact .asIs
  all_goals exact finish_closes a op u

/-- The ways a step answers a next state t (00_scope R5). -/
inductive StepCase (s t : State) : Prop where
  /-- A turn with no effect: an agent without a step, a poll without a key, a host action without one. -/
  | pass (h : t = s.takeTurn)
  | stop (hmode : s.mode = .run ∨ ∃ x, s.mode = .awaitKey x) (hrun : s.running = false)
      (h : t = stopCore s.takeTurn)
  | poll (x k : Nibble) (hmode : s.mode = .awaitKey x) (hrun : s.running = true)
      (h : Closes ((s.takeTurn.setV x (keyByte k)).setMode .run) t)
  | fetchFault (hcyc : AtCycle s) (f : Fault) (h : t = takeFault f s.pc none s.takeTurn)
  /-- A failed validation or an unimplemented word: a fault between the advance and the instruction. -/
  | earlyFault (hcyc : AtCycle s) (hpc : s.pc.toNat + 1 < memSize) (f : Fault) (op : Word)
      (h : t = takeFault f s.pc (some op) (advance s.takeTurn))
  | execute (i : Instr) (u : State) (hi : Executes s i) (he : exec i (advance s.takeTurn) = .next u)
      (h : Closes u t)
  | tick (hturn : s.nextTurn = .tick) (hrun : s.running = true)
      (h : t = { s.takeTurn with dt := countDown s.dt, st := countDown s.st })
  | load (hmode : s.mode = .idle) (m : Mem) (h : t = { s.takeTurn with mem := m })
  | start (hmode : s.mode = .idle) (h : t = { s.takeTurn with running := true, mode := .run })
  | halt (h : t = hostStop s.takeTurn)
  | signal (k : Nat) (hturn : s.nextTurn = .host (.signalPress k))
      (h : t = toggleKey (BitVec.ofNat 4 k) s.takeTurn)

/-- A word is fetched only where both its bytes are in memory (40_cycle R91). -/
theorem pc_lt_of_fetch {s : State} {op : Word} (h : fetch s = .ok op) : s.pc.toNat + 1 < memSize := by
  rcases fetch_cases s with ⟨hpc, _⟩ | ⟨_, e⟩ | ⟨_, e⟩
  · exact hpc
  all_goals rw [e] at h; cases h

theorem AtCycle.mode_run {s : State} (h : AtCycle s) : s.mode = .run := h.2.1

theorem AtCycle.running {s : State} (h : AtCycle s) : s.running = true := h.2.2

theorem Executes.atCycle {s : State} {i : Instr} (h : Executes s i) : AtCycle s := h.1

theorem Executes.pc_lt {s : State} {i : Instr} (h : Executes s i) : s.pc.toNat + 1 < memSize := by
  obtain ⟨_, _, hf, _⟩ := h
  exact pc_lt_of_fetch hf

theorem StepCase.of_cycle {s t : State} (hc : AtCycle s) (h : runCycle s.takeTurn = .next t) : StepCase s t := by
  rcases runCycle_cases s.takeTurn with ⟨f, _, e⟩ | ⟨op, r, hf, _, e⟩ | ⟨op, w, hf, _, _, e⟩ |
    ⟨op, i, u, hf, _, hd, he, e⟩ <;> rw [e] at h <;> cases h
  · exact .fetchFault hc f rfl
  · exact .earlyFault hc (pc_lt_of_fetch hf) _ op rfl
  · exact .earlyFault hc (pc_lt_of_fetch hf) _ op rfl
  · exact .execute i u ⟨hc, op, hf, hd⟩ he (endCycle_closes ..)

theorem StepCase.of_core {s t : State} (hn : s.nextTurn = .core) (h : coreStep s.takeTurn = .next t) :
    StepCase s t := by
  rcases coreStep_cases s.takeTurn with ⟨_, e⟩ | ⟨hr, hm, e⟩ | ⟨hr, hm, e⟩ | ⟨x, hr, hm, e⟩ <;> rw [e] at h
  · cases h; exact .pass rfl
  · cases h; exact .stop hm hr rfl
  · exact .of_cycle ⟨hn, hm, hr⟩ h
  · cases h
    rcases poll_cases x s.takeTurn with ⟨_, e⟩ | ⟨k, _, e⟩ <;> rw [e]
    · exact .pass rfl
    · exact .poll x k hm hr (finish_closes ..)

theorem StepCase.of_host {s t : State} {a : HostAction} (hn : s.nextTurn = .host a)
    (h : hostStep a s.takeTurn = .next t) : StepCase s t := by
  rcases hostStep_cases h with rfl | ⟨_, _, hm, _, rfl⟩ | ⟨_, _, hm, _, rfl⟩ | ⟨_, hm, rfl⟩ | ⟨_, rfl⟩ |
    ⟨k, rfl, _, rfl⟩
  · exact .pass rfl
  · exact .load hm _ rfl
  · exact .load hm _ rfl
  · exact .start hm rfl
  · exact .halt rfl
  · exact .signal k hn rfl

/-- Everything a step that answers a next state can do, over all agents. -/
theorem step_next_cases {s t : State} (h : step s = .next t) : StepCase s t := by
  rcases step_cases s with ⟨hn, e⟩ | ⟨hn, e⟩ | ⟨a, hn, e⟩ <;> rw [e] at h
  · exact .of_core hn h
  · cases h
    by_cases hr : s.running = true
    · exact .tick hn hr (by simp [Machine.tick, hr])
    · exact .pass (by simp [Machine.tick, hr])
  · exact .of_host hn h

end Sys2Proof.Machine
end

section
/-! PROOFS, 10_state. What one instruction does to PC, the stack, I, FB, the counters and `pressed`
(R25, R28, R29, R32, R35, R38). -/

namespace Sys2Proof.Machine

/-- The pieces of the state, other than PC, whose writers are named one by one (10_state R28, R29, R32, R35, R38). -/
structure Pieces where
  i : Addr
  stack : List Word
  fb : Grid
  dt : Byte
  st : Byte
  pressed : Option Nibble

/-- These pieces of a state. -/
def State.pieces (s : State) : Pieces :=
  { i := s.i, stack := s.stack, fb := s.fb, dt := s.dt, st := s.st, pressed := s.pressed }

/-- What an instruction may do to PC and to the pieces: one constructor per way of writing them. -/
inductive ExecMove (i : Instr) (s t : State) : Prop where
  | stay (hpc : t.pc = s.pc) (h : t.pieces = s.pieces)
  | skip (hpc : t.pc = s.pc + 2) (h : t.pieces = s.pieces)
  | jump (nnn : Addr) (hpc : t.pc = target nnn) (h : t.pieces = s.pieces)
  | jumpOffset (nnn : Addr) (b : Byte) (hpc : t.pc = offsetTarget nnn b) (h : t.pieces = s.pieces)
  | ret (hi : i = .ret) (a : Word) (ha : s.stack.getLast? = some a) (hpc : t.pc = a)
      (h : t.pieces = { s.pieces with stack := s.stack.dropLast })
  | call (nnn : Addr) (hi : i = .call nnn) (hlen : s.stack.length < stackDepth) (hpc : t.pc = target nnn)
      (h : t.pieces = { s.pieces with stack := s.stack ++ [s.pc] })
  | index (hi : (∃ nnn, i = .ldI nnn) ∨ ∃ x, i = .addI x ∨ i = .ldF x ∨ i = .ldMemVx x ∨ i = .ldVxMem x)
      (hpc : t.pc = s.pc) (a : Addr) (h : t.pieces = { s.pieces with i := a })
  | framebuffer (hi : (∃ x y n, i = .drw x y n) ∨ (i = .cls ∧ s.params.clsClearsFb = true))
      (hpc : t.pc = s.pc) (g : Grid) (h : t.pieces = { s.pieces with fb := g })
  | delay (x : Nibble) (hi : i = .ldDtVx x) (hpc : t.pc = s.pc) (b : Byte) (h : t.pieces = { s.pieces with dt := b })
  | sound (x : Nibble) (hi : i = .ldStVx x) (hpc : t.pc = s.pc) (b : Byte) (h : t.pieces = { s.pieces with st := b })

/-- A skip either is taken or leaves PC. -/
theorem ExecMove.of_skipIf {i : Instr} (c : Bool) {s u : State} (hpc : u.pc = s.pc)
    (h : u.pieces = s.pieces) : ExecMove i s (skipIf c u) := by
  cases c
  · exact .stay hpc h
  · exact .skip (congrArg (· + 2) hpc) h

/-- Fault entry on an effect's state changes neither PC nor the pieces (60_exceptions R221). -/
theorem Effect.outcome_pc_pieces {i : Instr} {e : Effect} {t : State} (h : e.outcome i = .next t) :
    t.pc = e.final.pc ∧ t.pieces = e.final.pieces := by
  rcases Effect.outcome_final h with rfl | ⟨f, rfl⟩ <;> exact ⟨rfl, rfl⟩

/-- An effect that writes registers, memory and I alone. -/
theorem ExecMove.of_index {i : Instr} {e : Effect} {s t : State}
    (hi : (∃ nnn, i = .ldI nnn) ∨ ∃ x, i = .addI x ∨ i = .ldF x ∨ i = .ldMemVx x ∨ i = .ldVxMem x)
    (ho : e.outcome i = .next t)
    (h : e.final = { s with v := e.final.v, i := e.final.i, mem := e.final.mem }) : ExecMove i s t := by
  obtain ⟨hpc, hp⟩ := Effect.outcome_pc_pieces ho
  exact .index hi (by rw [hpc, h]) e.final.i (by rw [hp, h]; rfl)

/-- What executing an instruction can do to PC and to the pieces. -/
theorem exec_move {i : Instr} {s t : State} (h : exec i s = .next t) : ExecMove i s t := by
  cases i
  case cls =>
    cases h
    split
    · next hc => exact .framebuffer (.inr ⟨rfl, hc⟩) rfl Grid.off rfl
    · exact .stay rfl rfl
  case ret =>
    simp only [exec, execRet] at h
    split at h <;> cases h
    · exact .stay rfl rfl
    · next a ha => exact .ret rfl a ha rfl rfl
  case jp nnn => cases h; exact .jump nnn rfl rfl
  case jpV0 nnn => cases h; exact .jumpOffset nnn _ rfl rfl
  case call nnn =>
    simp only [exec, execCall] at h
    split at h
    · cases h; exact .stay rfl rfl
    · next hlen =>
      split at h <;> cases h
      · exact .stay rfl rfl
      · exact .call nnn rfl (Nat.lt_of_not_le hlen) rfl rfl
  case seImm x kk => cases h; exact .of_skipIf _ rfl rfl
  case sneImm x kk => cases h; exact .of_skipIf _ rfl rfl
  case seReg x y => cases h; exact .of_skipIf _ rfl rfl
  case sneReg x y => cases h; exact .of_skipIf _ rfl rfl
  case skp x =>
    simp only [exec, execSkp] at h
    split at h <;> cases h
    · exact .stay rfl rfl
    · exact .of_skipIf _ rfl rfl
  case sknp x =>
    simp only [exec, execSknp] at h
    split at h <;> cases h
    · exact .stay rfl rfl
    · exact .of_skipIf _ rfl rfl
  case ldVxK x =>
    simp only [exec, execLdVxK] at h
    split at h <;> cases h <;> exact .stay rfl rfl
  case ldI nnn => cases h; exact .index (.inl ⟨nnn, rfl⟩) rfl nnn rfl
  case ldF x => cases h; exact .index (.inr ⟨x, .inr (.inl rfl)⟩) rfl _ rfl
  case ldDtVx x => cases h; exact .delay x rfl rfl _ rfl
  case ldStVx x => cases h; exact .sound x rfl rfl _ rfl
  case addI x => exact .of_index (.inr ⟨x, .inl rfl⟩) h (by rw [writeIndex_final])
  case ldB x =>
    obtain ⟨hpc, hp⟩ := Effect.outcome_pc_pieces h
    rw [(storeBcd_frame _ _).1] at hpc hp
    exact .stay hpc hp
  case ldMemVx x => exact .of_index (.inr ⟨x, .inr (.inr (.inl rfl))⟩) h (by rw [ldMemVx_final])
  case ldVxMem x => exact .of_index (.inr ⟨x, .inr (.inr (.inr rfl))⟩) h (by rw [ldVxMem_final])
  case drw x y n =>
    obtain ⟨hpc, hp⟩ := Effect.outcome_pc_pieces h
    rw [drw_final] at hpc hp
    exact .framebuffer (.inl ⟨x, y, n, rfl⟩) hpc _ hp
  all_goals (cases h; exact .stay rfl rfl)

end Sys2Proof.Machine
end

section
/-! PROOFS, 10_state. What every step keeps: the bounds of PC and the stack, mode with fault record and
`running`, the ended run; who writes each piece; and the built machine. -/

namespace Sys2Proof.Machine

/-! ## PC and the stack (R25, R26, R29) -/

/-- The bounds read PC and the stack alone. -/
theorem PcInv.congr {s t : State} (h : PcInv s) (hpc : t.pc = s.pc) (hst : t.stack = s.stack) : PcInv t := by
  rwa [PcInv, hpc, hst]

/-- Ending a step changes neither PC nor the pieces. -/
theorem Closes.pc_pieces {u t : State} (h : Closes u t) : t.pc = u.pc ∧ t.pieces = u.pieces := by
  cases h <;> exact ⟨rfl, rfl⟩

theorem Closes.stack {u t : State} (h : Closes u t) : t.stack = u.stack :=
  congrArg Pieces.stack h.pc_pieces.2

theorem target_toNat_lt (nnn : Addr) : (target nnn).toNat < 4096 := by
  unfold target
  have := nnn.isLt
  rw [BitVec.toNat_setWidth]
  omega

/-- The farthest target of Bnnn, 0xFFF + 0xFF (10_state R25). -/
theorem offsetTarget_toNat_le (nnn : Addr) (b : Byte) : (offsetTarget nnn b).toNat ≤ 0x10FE := by
  unfold offsetTarget
  have hn := nnn.isLt
  have hb := b.isLt
  rw [BitVec.toNat_add, BitVec.toNat_setWidth, BitVec.toNat_setWidth]
  omega

/-- The advance past a fetched word stays within the address of the cell after memory (40_cycle R91, R92). -/
theorem add_two_toNat_le {pc : Word} (h : pc.toNat + 1 < memSize) : (pc + 2).toNat ≤ 0x1000 := by
  have h' : pc.toNat + 1 < 4096 := h
  bv_omega

theorem PcInv.advance {s : State} (h : PcInv s) (hf : s.pc.toNat + 1 < memSize) : PcInv (advance s) := by
  obtain ⟨_, hlen, hent⟩ := h
  have := add_two_toNat_le hf
  exact ⟨by rw [advance_pc]; omega, hlen, hent⟩

/-- An instruction keeps the bounds where PC is that of an advance past a fetched word. -/
theorem ExecMove.pcInv {i : Instr} {s t : State} (hm : ExecMove i s t) (hpc : s.pc.toNat ≤ 0x1000)
    (h : PcInv s) : PcInv t := by
  obtain ⟨hle, hlen, hent⟩ := h
  have bounds : ∀ {p : Word}, p.toNat ≤ 0x10FE → t.pc = p → t.stack = s.stack → PcInv t := by
    intro p hp e hst
    exact ⟨by rwa [e], by rwa [hst], by rwa [hst]⟩
  cases hm with
  | stay e h | index _ e _ h | framebuffer _ e _ h | delay _ _ e _ h | sound _ _ e _ h =>
    exact bounds hle e (congrArg Pieces.stack h)
  | skip e h => exact bounds (by bv_omega) e (congrArg Pieces.stack h)
  | jump nnn e h =>
    exact bounds (by have := target_toNat_lt nnn; omega) e (congrArg Pieces.stack h)
  | jumpOffset nnn b e h => exact bounds (offsetTarget_toNat_le nnn b) e (congrArg Pieces.stack h)
  | ret _ a ha e h =>
    have hst : t.stack = s.stack.dropLast := congrArg Pieces.stack h
    have ha' : a.toNat ≤ 0x1000 := hent a (List.mem_of_getLast? ha)
    refine ⟨by rw [e]; omega, ?_, fun x hx => hent x (List.mem_of_mem_dropLast (hst ▸ hx))⟩
    rw [hst, List.length_dropLast]
    omega
  | call nnn _ hroom e h =>
    have hst : t.stack = s.stack ++ [s.pc] := congrArg Pieces.stack h
    have hroom' : s.stack.length < 16 := hroom
    refine ⟨by have := target_toNat_lt nnn; rw [e]; omega, ?_, fun x hx => ?_⟩
    · rw [hst, List.length_append, List.length_singleton]; omega
    · rw [hst, List.mem_append, List.mem_singleton] at hx
      rcases hx with hx | rfl
      · exact hent x hx
      · exact hpc

/-- Settles O19, by the ways of a step: only a cycle writes PC or the stack, and it executes at most two
past a PC whose word lies in memory. -/
theorem stepKeepsPcAndStackBounds : Obligations.StepKeepsPcAndStackBounds := by
  intro s t hs h
  cases step_next_cases h with
  | earlyFault _ hpc f op h => exact h ▸ hs.advance (s := s.takeTurn) hpc
  | execute i u hi he hc =>
    have hu : PcInv u :=
      (exec_move he).pcInv (add_two_toNat_le hi.pc_lt) (hs.advance (s := s.takeTurn) hi.pc_lt)
    exact hu.congr hc.pc_pieces.1 hc.stack
  | poll x k _ _ hc => exact hs.congr hc.pc_pieces.1 hc.stack
  | pass h | stop _ _ h | fetchFault _ _ h | tick _ _ h | load _ _ h | start _ h | halt h | signal _ _ h => exact h ▸ hs

/-! ## Mode, fault record and `running` (R33, R34, R40) -/

/-- Fault entry meets the consistency whatever the state was (60_exceptions R221). -/
theorem modeInv_takeFault (f : Fault) (a : Word) (op : Option Word) (s : State) : ModeInv (takeFault f a op s) :=
  ⟨by simp, by simp⟩

theorem Closes.modeInv {u t : State} (h : Closes u t) (hu : ModeInv u) : ModeInv t := by
  cases h with
  | asIs => exact hu
  | fault f a op => exact modeInv_takeFault f a op u
  | published => exact hu

/-- With no fault recorded and a mode other than Faulted, only `running` is left to check. -/
theorem ModeInv.of_no_fault {s : State} (hm : s.mode ≠ .faulted) (hf : s.fault = none)
    (hr : s.running = true → s.mode = .run ∨ ∃ x, s.mode = .awaitKey x) : ModeInv s :=
  ⟨by simp [hm, hf], hr⟩

theorem ModeInv.fault_none {s : State} (h : ModeInv s) (hm : s.mode ≠ .faulted) : s.fault = none := by
  by_contra hf
  exact hm (h.1.2 hf)

/-- An instruction goes on, waits for a key, or raises a fault; all three are consistent. -/
theorem ExecControl.modeInv {i : Instr} {s t : State} (hx : ExecControl i s t) (hm : s.mode = .run)
    (h : ModeInv s) : ModeInv t := by
  rcases hx.ends with ⟨em, ef, er⟩ | ⟨x, _, e⟩ | ⟨f, ef, em, er, _⟩
  · rwa [ModeInv, em, ef, er]
  · subst e
    exact .of_no_fault (by simp) (h.fault_none (by simp [hm])) (fun _ => .inr ⟨x, rfl⟩)
  · exact ⟨by simp [ef, em], by simp [er]⟩

/-- Settles O20, by the ways of a step: fault entry sets mode and record together, and only the start sets
`running`. -/
theorem stepKeepsModeAndFaultConsistent : Obligations.StepKeepsModeAndFaultConsistent := by
  intro s t hs h
  cases step_next_cases h with
  | pass h | tick _ _ h | load _ _ h | signal _ _ h => exact h ▸ hs
  | stop hm hr h =>
    have hne : s.mode ≠ .faulted := by rcases hm with e | ⟨x, e⟩ <;> simp [e]
    subst h
    exact .of_no_fault (by simp) (hs.fault_none hne) (by simp [hr])
  | poll x k hm _ hc =>
    exact hc.modeInv (.of_no_fault (by simp) (hs.fault_none (by simp [hm])) (fun _ => .inl rfl))
  | fetchFault _ f h => exact h ▸ modeInv_takeFault ..
  | earlyFault _ _ f op h => exact h ▸ modeInv_takeFault ..
  | execute i u hi he hc =>
    exact hc.modeInv ((exec_control he).modeInv hi.atCycle.mode_run hs)
  | start hm h =>
    subst h
    exact .of_no_fault (by simp) (hs.fault_none (by simp [hm])) (fun _ => .inl rfl)
  | halt h =>
    subst h
    exact ⟨hs.1, by simp⟩

/-! ## The ended run (R34, R39, R40; 60 R229) -/

theorem Closes.params {u t : State} (h : Closes u t) : t.params = u.params := by
  cases h <;> rfl

/-- The parameters are those the machine was built with (R39). -/
theorem step_params {s t : State} (h : step s = .next t) : t.params = s.params := by
  cases step_next_cases h with
  | execute i u _ he hc => exact hc.params.trans (exec_control he).params
  | poll x k _ _ hc => exact hc.params
  | pass h | stop _ _ h | fetchFault _ _ h | earlyFault _ _ _ _ h | tick _ _ h | load _ _ h | start _ h | halt h
  | signal _ _ h => exact h ▸ rfl

/-- In Stopped and Faulted no step changes the mode or the fault record (R34, R40). -/
theorem step_of_final {s t : State} (h : step s = .next t) (hfin : s.mode = .stopped ∨ s.mode = .faulted) :
    t.mode = s.mode ∧ t.fault = s.fault := by
  have hrun : s.mode ≠ .run := by rcases hfin with e | e <;> simp [e]
  have hkey : ∀ x, s.mode ≠ .awaitKey x := by rcases hfin with e | e <;> simp [e]
  have hidle : s.mode ≠ .idle := by rcases hfin with e | e <;> simp [e]
  cases step_next_cases h with
  | pass h | tick _ _ h | halt h | signal _ _ h => exact h ▸ ⟨rfl, rfl⟩
  | stop hm => rcases hm with hm | ⟨x, hm⟩; exacts [absurd hm hrun, absurd hm (hkey x)]
  | poll x _ hm => exact absurd hm (hkey x)
  | fetchFault hcyc | earlyFault hcyc => exact absurd hcyc.mode_run hrun
  | execute _ _ hi => exact absurd hi.atCycle.mode_run hrun
  | load hm | start hm => exact absurd hm hidle

/-- Outside Idle no step sets `running` (60 R229; log entry 13). -/
theorem step_keeps_not_running {s t : State} (h : step s = .next t) (hidle : s.mode ≠ .idle)
    (hr : s.running = false) : t.running = false := by
  have hnot : s.running ≠ true := by simp [hr]
  cases step_next_cases h with
  | pass h | stop _ _ h | signal _ _ h => exact h ▸ hr
  | halt h => exact h ▸ rfl
  | poll _ _ _ hrun | tick _ hrun => exact absurd hrun hnot
  | fetchFault hcyc | earlyFault hcyc => exact absurd hcyc.running hnot
  | execute _ _ hi => exact absurd hi.atCycle.running hnot
  | load hm | start hm => exact absurd hm hidle

/-- Settles O25, one clause per law of a step. -/
theorem endedRunNeverResumes : Obligations.EndedRunNeverResumes := by
  intro s t h
  refine ⟨fun hm => ?_, fun hm => ?_, step_params h, step_keeps_not_running h⟩
  · exact (step_of_final h (.inl hm)).1.trans hm
  · obtain ⟨em, ef⟩ := step_of_final h (.inr hm)
    exact ⟨em.trans hm, ef⟩

/-! ## Who writes each piece (R28, R29, R32, R35, R38) -/

/-- The one way in which a step writes the pieces, with what is known of the step. -/
inductive PieceWrite (s t : State) : Prop where
  | none (h : t.pieces = s.pieces)
  | index (hi : (∃ nnn, Executes s (.ldI nnn)) ∨
        ∃ x, Executes s (.addI x) ∨ Executes s (.ldF x) ∨ Executes s (.ldMemVx x) ∨ Executes s (.ldVxMem x))
      (a : Addr) (h : t.pieces = { s.pieces with i := a })
  | stack (hi : Executes s .ret ∨ ∃ nnn, Executes s (.call nnn)) (l : List Word)
      (h : t.pieces = { s.pieces with stack := l })
  | framebuffer (hi : (∃ x y n, Executes s (.drw x y n)) ∨ (Executes s .cls ∧ s.params.clsClearsFb = true))
      (g : Grid) (h : t.pieces = { s.pieces with fb := g })
  | delay (hi : ∃ x, Executes s (.ldDtVx x)) (b : Byte) (h : t.pieces = { s.pieces with dt := b })
  | sound (hi : ∃ x, Executes s (.ldStVx x)) (b : Byte) (h : t.pieces = { s.pieces with st := b })
  | tick (hturn : s.nextTurn = .tick ∧ s.running = true) (b c : Byte)
      (h : t.pieces = { s.pieces with dt := b, st := c })
  | signal (hturn : ∃ k, s.nextTurn = .host (.signalPress k)) (p : Option Nibble)
      (h : t.pieces = { s.pieces with pressed := p })

/-- An instruction executed in the advanced state writes at most the piece it is named for. -/
theorem ExecMove.pieceWrite {i : Instr} {s u t : State} (hm : ExecMove i (advance s.takeTurn) u)
    (hi : Executes s i) (hc : t.pieces = u.pieces) : PieceWrite s t := by
  cases hm with
  | stay _ h | skip _ h | jump _ _ h | jumpOffset _ _ _ h => exact .none (hc.trans h)
  | ret e _ _ _ h => subst e; exact .stack (.inl hi) _ (hc.trans h)
  | call nnn e _ _ h => subst e; exact .stack (.inr ⟨nnn, hi⟩) _ (hc.trans h)
  | index e _ a h =>
    refine .index ?_ a (hc.trans h)
    rcases e with ⟨nnn, rfl⟩ | ⟨x, rfl | rfl | rfl | rfl⟩
    · exact .inl ⟨nnn, hi⟩
    · exact .inr ⟨x, .inl hi⟩
    · exact .inr ⟨x, .inr (.inl hi)⟩
    · exact .inr ⟨x, .inr (.inr (.inl hi))⟩
    · exact .inr ⟨x, .inr (.inr (.inr hi))⟩
  | framebuffer e _ g h =>
    refine .framebuffer ?_ g (hc.trans h)
    rcases e with ⟨x, y, n, rfl⟩ | ⟨rfl, hcls⟩
    · exact .inl ⟨x, y, n, hi⟩
    · exact .inr ⟨hi, hcls⟩
  | delay x e _ b h => subst e; exact .delay ⟨x, hi⟩ b (hc.trans h)
  | sound x e _ b h => subst e; exact .sound ⟨x, hi⟩ b (hc.trans h)

theorem step_pieceWrite {s t : State} (h : step s = .next t) : PieceWrite s t := by
  cases step_next_cases h with
  | execute i u hi he hc => exact (exec_move he).pieceWrite hi hc.pc_pieces.2
  | poll x k _ _ hc => exact .none hc.pc_pieces.2
  | tick hn hr h => subst h; exact .tick ⟨hn, hr⟩ _ _ rfl
  | signal k hn h => subst h; exact .signal ⟨k, hn⟩ _ rfl
  | pass h | stop _ _ h | fetchFault _ _ h | earlyFault _ _ _ _ h | load _ _ h | start _ h | halt h =>
    exact .none (h ▸ rfl)

/-- Settles O24: a step writes the pieces in one way, and each way but the named ones leaves the piece. -/
theorem eachStatePieceHasItsWriters : Obligations.EachStatePieceHasItsWriters := by
  intro s t h
  have hw := step_pieceWrite h
  refine ⟨fun hne => ?i, fun hne => ?stack, fun hne => ?fb, fun hne => ?dt, fun hne => ?st,
    fun hne => ?pressed⟩
  case i =>
    cases hw with
    | index hi => exact hi
    | none h | stack _ _ h | framebuffer _ _ h | delay _ _ h | sound _ _ h | tick _ _ _ h | signal _ _ h =>
      exact absurd (congrArg Pieces.i h) hne
  case stack =>
    cases hw with
    | stack hi => exact hi
    | none h | index _ _ h | framebuffer _ _ h | delay _ _ h | sound _ _ h | tick _ _ _ h | signal _ _ h =>
      exact absurd (congrArg Pieces.stack h) hne
  case fb =>
    cases hw with
    | framebuffer hi => exact hi
    | none h | index _ _ h | stack _ _ h | delay _ _ h | sound _ _ h | tick _ _ _ h | signal _ _ h =>
      exact absurd (congrArg Pieces.fb h) hne
  case dt =>
    cases hw with
    | delay hi => exact .inr hi
    | tick hturn => exact .inl hturn
    | none h | index _ _ h | stack _ _ h | framebuffer _ _ h | sound _ _ h | signal _ _ h =>
      exact absurd (congrArg Pieces.dt h) hne
  case st =>
    cases hw with
    | sound hi => exact .inr hi
    | tick hturn => exact .inl hturn
    | none h | index _ _ h | stack _ _ h | framebuffer _ _ h | delay _ _ h | signal _ _ h =>
      exact absurd (congrArg Pieces.st h) hne
  case pressed =>
    cases hw with
    | signal hturn => exact hturn
    | none h | index _ _ h | stack _ _ h | framebuffer _ _ h | delay _ _ h | sound _ _ h | tick _ _ _ h =>
      exact absurd (congrArg Pieces.pressed h) hne

/-! ## The built machine (R44, R102, R250) -/

/-- Settles O33: the fields of a built state, which are those of the table. -/
theorem builtStateIsTheResetTable : Obligations.BuiltStateIsTheResetTable := by
  refine ⟨fun params init => ?_, Config.resetParams, Init.zero, rfl⟩
  exact ⟨rfl, rfl, rfl, rfl, rfl, rfl, rfl, rfl, rfl, rfl, rfl, rfl, rfl, rfl, rfl, rfl⟩

theorem build_pcInv (params : Params) (init : Init) : PcInv (State.build params init) :=
  ⟨(by decide : pcInit.toNat ≤ 0x10FE), Nat.zero_le _, fun _ he => absurd he List.not_mem_nil⟩

theorem build_modeInv (params : Params) (init : Init) : ModeInv (State.build params init) :=
  .of_no_fault (by simp [State.build]) rfl (by simp [State.build])

/-- PC_INIT and the empty stack are valid, whatever INIT is (40_cycle R102). -/
theorem build_strictInv (params : Params) (init : Init) : StrictInv (State.build params init) := by
  intro _ _
  have h : firstInvalid (State.build params init) = firstInvalid State.reset := firstInvalid_congr rfl rfl
  rw [h]
  decide

/-- Settles O22: each invariant at construction; the machine after reset is built with canonical memory. -/
theorem builtMachineMeetsInvariants : Obligations.BuiltMachineMeetsInvariants := by
  have built : ∀ (params : Params) (init : Init), init.mem.wf = true →
      MemInv (State.build params init) ∧ PcInv (State.build params init) ∧
      ModeInv (State.build params init) ∧ StrictInv (State.build params init) :=
    fun params init hmem =>
      ⟨hmem, build_pcInv params init, build_modeInv params init, build_strictInv params init⟩
  exact ⟨built, built Config.resetParams Init.zero State.reset_mem_wf⟩

end Sys2Proof.Machine
end

section
/-! PROOFS, 20_memory. The two primitives; what one instruction and one step do to memory (R50 to R53, R60). -/

namespace Sys2Proof.Machine

/-! ## MemRead and MemWrite (R51, R52) -/

/-- The read of a cell of memory. -/
theorem memRead_of_lt {addr : Nat} (h : addr < memSize) (s : State) : memRead addr s = .ok (s.byteAt addr) :=
  if_pos h

/-- A read past the top raises. -/
theorem memRead_of_le {addr : Nat} (h : memSize ≤ addr) (s : State) :
    memRead addr s = .error (.memOutOfRange addr) :=
  if_neg (Nat.not_lt.2 h)

/-- The write of a cell of memory. -/
theorem memWrite_of_lt {addr : Nat} (h : addr < memSize) (b : Byte) (s : State) :
    memWrite addr b s = .ok { s with mem := s.mem.write addr b } :=
  if_pos h

/-- A write past the top raises and leaves no state. -/
theorem memWrite_of_le {addr : Nat} (h : memSize ≤ addr) (b : Byte) (s : State) :
    memWrite addr b s = .error (.memOutOfRange addr) :=
  if_neg (Nat.not_lt.2 h)

/-- Settles O34: the two checks, and the laws of one cell's write to canonical memory. -/
theorem memoryPrimitivesCheckBounds : Obligations.MemoryPrimitivesCheckBounds := by
  intro s addr b
  refine ⟨fun hlt => memRead_of_lt hlt s, fun hle => ⟨memRead_of_le hle s, memWrite_of_le hle b s⟩,
    fun hlt hwf => ⟨_, memWrite_of_lt hlt b s, ?_, ?_, rfl, ?_⟩⟩
  · exact Mem.read_write_same hwf
  · exact fun a ha => Mem.read_write_other ha
  · exact Mem.wf_write hwf hlt

/-! ## One instruction (R53) -/

/-- What an instruction may do to memory: only Fx33 and Fx55 write it, and they keep its canonical form. -/
inductive ExecMemory (i : Instr) (s t : State) : Prop where
  | kept (h : t.mem = s.mem)
  | stored (x : Nibble) (hi : i = .ldB x ∨ i = .ldMemVx x) (hwf : s.mem.wf = true → t.mem.wf = true)

/-- Fault entry on an effect's state leaves its memory alone (60_exceptions R221, R222). -/
theorem Effect.outcome_mem {i : Instr} {e : Effect} {t : State} (h : e.outcome i = .next t) :
    t.mem = e.final.mem := by
  rcases Effect.outcome_final h with rfl | ⟨f, rfl⟩ <;> rfl

/-- The last part of Fx55 and Fx65, `I <- I + x + 1`, leaves memory alone (43_index_memory R154, R155). -/
theorem andThen_bumpIndex_mem (e : Effect) (x : Nibble) : (e.andThen (bumpIndex x)).final.mem = e.final.mem := by
  cases e with
  | done s => rw [Effect.done_andThen, bumpIndex, writeIndex_final]; rfl
  | raised f s => rfl

/-- An effect that leaves memory alone. -/
theorem ExecMemory.of_effect {i : Instr} {e : Effect} {s t : State} (ho : e.outcome i = .next t)
    (h : e.final.mem = s.mem) : ExecMemory i s t :=
  .kept ((Effect.outcome_mem ho).trans h)

/-- What executing an instruction can do to memory. -/
theorem exec_memory {i : Instr} {s t : State} (h : exec i s = .next t) : ExecMemory i s t := by
  cases i
  case ldB x =>
    refine .stored x (.inl rfl) fun hwf => ?_
    rw [Effect.outcome_mem h]
    exact (storeBcd_frame _ s).2.1 hwf
  case ldMemVx x =>
    refine .stored x (.inr rfl) fun hwf => ?_
    rw [Effect.outcome_mem h, andThen_bumpIndex_mem]
    exact (storeRegs_frame (x.toNat + 1) 0 s).2.1 hwf
  case ldVxMem x => exact .of_effect h (by rw [ldVxMem_final])
  case drw x y n => exact .of_effect h (by rw [drw_final]; rfl)
  case addI x => exact .of_effect h (by rw [writeIndex_final])
  case cls =>
    cases h
    split <;> exact .kept rfl
  case ret =>
    simp only [exec, execRet] at h
    split at h <;> cases h <;> exact .kept rfl
  case call nnn =>
    simp only [exec, execCall] at h
    split at h
    · cases h; exact .kept rfl
    · split at h <;> cases h <;> exact .kept rfl
  case skp x =>
    simp only [exec, execSkp] at h
    split at h <;> cases h <;> exact .kept rfl
  case sknp x =>
    simp only [exec, execSknp] at h
    split at h <;> cases h <;> exact .kept rfl
  case ldVxK x =>
    simp only [exec, execLdVxK] at h
    split at h <;> cases h <;> exact .kept rfl
  all_goals (cases h; exact .kept rfl)

/-! ## One step (R60) -/

/-- The ways in which a step treats memory: left alone, stored to by an instruction, or loaded by the
host in mode Idle. -/
inductive StepMemory (s t : State) : Prop where
  | kept (h : t.mem = s.mem)
  | stored (x : Nibble) (hi : Executes s (.ldB x) ∨ Executes s (.ldMemVx x))
      (hwf : s.mem.wf = true → t.mem.wf = true)
  | loaded (hmode : s.mode = .idle) (bytes : List Byte)
      (hturn : s.nextTurn = .host (.loadFont bytes) ∨ s.nextTurn = .host (.loadRom bytes))
      (a : Nat) (hfit : a + bytes.length ≤ memSize) (h : t.mem = s.mem.writeList a bytes)

/-- Ending a step leaves memory alone. -/
theorem Closes.mem {u t : State} (h : Closes u t) : t.mem = u.mem := by
  cases h <;> rfl

/-- A tick leaves memory alone (60_exceptions R227). -/
@[simp] theorem tick_mem (s : State) : (tick s).mem = s.mem := by
  unfold tick
  split <;> rfl

/-- In mode Idle only a load of the host writes memory (60_exceptions R234). -/
theorem StepMemory.of_idle {s t : State} (hm : s.mode = .idle) (h : step s = .next t) : StepMemory s t := by
  rcases step_cases s with ⟨_, e⟩ | ⟨_, e⟩ | ⟨a, hn, e⟩ <;> rw [e] at h
  · rw [coreStep, takeTurn_mode, hm] at h
    cases h
    exact .kept rfl
  · cases h
    exact .kept (tick_mem _)
  · rcases hostStep_cases h with rfl | ⟨bytes, rfl, _, hlen, rfl⟩ | ⟨bytes, rfl, _, hlen, rfl⟩ | ⟨_, _, rfl⟩ |
      ⟨_, rfl⟩ | ⟨_, _, _, rfl⟩
    · exact .kept rfl
    · exact .loaded hm bytes (.inl hn) 0 (by rw [hlen]; decide) rfl
    · have hfit : pcInit.toNat + romMax ≤ memSize := by decide
      exact .loaded hm bytes (.inr hn) pcInit.toNat (by omega) rfl
    all_goals exact .kept rfl

/-- What a step can do to memory, over all agents. -/
theorem step_memory {s t : State} (h : step s = .next t) : StepMemory s t := by
  cases step_next_cases h with
  | execute i u hi he hc =>
    cases exec_memory he with
    | kept e => exact .kept (hc.mem.trans e)
    | stored x hx hwf =>
      refine .stored x ?_ (by rwa [hc.mem])
      rcases hx with rfl | rfl
      · exact .inl hi
      · exact .inr hi
  | poll x k _ _ hc => exact .kept hc.mem
  | load hm => exact .of_idle hm h
  | pass e | stop _ _ e | fetchFault _ _ e | earlyFault _ _ _ _ e | tick _ _ e | start _ e | halt e | signal _ _ e =>
    exact .kept (e ▸ rfl)

/-- Settles O18: memory is left alone, or written by stores and loads below MEM_SIZE. -/
theorem stepKeepsMemoryCanonical : Obligations.StepKeepsMemoryCanonical := by
  intro s t hs h
  cases step_memory h with
  | kept e => rwa [MemInv, e]
  | stored _ _ hwf => exact hwf hs
  | loaded _ bytes _ a hfit e =>
    rw [MemInv, e]
    exact Mem.wf_writeList hs hfit

/-- Settles O23: the ways of a step that can change a byte are the named ones. -/
theorem onlyStoresAndLoadsChangeMemory : Obligations.OnlyStoresAndLoadsChangeMemory := by
  intro s t a h hne
  cases step_memory h with
  | kept e => exact absurd (congrArg (Mem.read · a) e) hne
  | stored x hi => exact .inl ⟨x, hi⟩
  | loaded hm bytes hturn => exact .inr ⟨hm, bytes, hturn⟩

end Sys2Proof.Machine
end

section
/-! PROOFS, 30_encoding. Encoder, decoder and opcode map are one relation between words and instructions
(R72, R75 to R77): decoding an encoding gives the instruction back, what the decoder answers is about the
word it was given, and the words that match a row are the encodings. -/

namespace Sys2Proof

/-! ## A word from its fields (R71, R72) -/

section Fields

variable {w : Word} {f n : Nibble} {kk : Byte}

theorem formatNNN_fields (hf : fieldFamily w = f) : formatNNN f (fieldNnn w) = w := by
  subst hf
  apply BitVec.eq_of_toNat_eq
  rw [formatNNN_toNat, fieldFamily_toNat, fieldNnn_toNat]
  omega

theorem formatXKK_fields (hf : fieldFamily w = f) (hk : fieldKk w = kk) : formatXKK f (fieldX w) kk = w := by
  subst hf hk
  apply BitVec.eq_of_toNat_eq
  rw [formatXKK_toNat, fieldFamily_toNat, fieldX_toNat, fieldKk_toNat]
  omega

theorem formatXYN_fields (hf : fieldFamily w = f) (hn : fieldN w = n) :
    formatXYN f (fieldX w) (fieldY w) n = w := by
  subst hf hn
  apply BitVec.eq_of_toNat_eq
  rw [formatXYN_toNat, fieldFamily_toNat, fieldX_toNat, fieldY_toNat, fieldN_toNat]
  omega

/-! ## A word that matches a row, from its fields (R75) -/

theorem fieldFamily_of_rowMatches (h : rowMatches (0xF000, formatNNN f 0) w = true) : fieldFamily w = f := by
  rw [rowMatches_family, formatNNN_toNat] at h
  apply BitVec.eq_of_toNat_eq
  rw [fieldFamily_toNat]
  omega

theorem formatNNN_of_rowMatches (h : rowMatches (0xF000, formatNNN f 0) w = true) :
    formatNNN f (fieldNnn w) = w :=
  formatNNN_fields (fieldFamily_of_rowMatches h)

theorem formatXKK_of_rowMatches_family (h : rowMatches (0xF000, formatNNN f 0) w = true) :
    formatXKK f (fieldX w) (fieldKk w) = w :=
  formatXKK_fields (fieldFamily_of_rowMatches h) rfl

theorem formatXYN_of_rowMatches_family (h : rowMatches (0xF000, formatNNN f 0) w = true) :
    formatXYN f (fieldX w) (fieldY w) (fieldN w) = w :=
  formatXYN_fields (fieldFamily_of_rowMatches h) rfl

theorem formatXYN_of_rowMatches_function (h : rowMatches (0xF00F, formatXYN f 0 0 n) w = true) :
    formatXYN f (fieldX w) (fieldY w) n = w := by
  rw [rowMatches_function, formatXYN_toNat] at h
  apply formatXYN_fields <;> apply BitVec.eq_of_toNat_eq
  · rw [fieldFamily_toNat]; omega
  · rw [fieldN_toNat]; omega

theorem formatXKK_of_rowMatches_byte (h : rowMatches (0xF0FF, formatXKK f 0 kk) w = true) :
    formatXKK f (fieldX w) kk = w := by
  rw [rowMatches_byte, formatXKK_toNat] at h
  apply formatXKK_fields <;> apply BitVec.eq_of_toNat_eq
  · rw [fieldFamily_toNat]; omega
  · rw [fieldKk_toNat]; omega

/-! ## Decoding an encoding (R76) -/

theorem decodeWord_arith (hf : fieldFamily w = 0x8) : decodeWord w = decodeArith w := by
  simp [decodeWord, hf]

theorem decodeWord_keys (hf : fieldFamily w = 0xE) : decodeWord w = decodeKeys w := by
  simp [decodeWord, hf]

theorem decodeWord_misc (hf : fieldFamily w = 0xF) : decodeWord w = decodeMisc w := by
  simp [decodeWord, hf]

end Fields

/-- The decoder undoes the encoder, format by format (R72, R76). -/
@[simp] theorem decodeWord_encode (i : Instr) : decodeWord (encode i) = .instr i := by
  cases i
  case cls | ret => rfl
  case jp | call | ldI | jpV0 | seImm | sneImm | ldImm | addImm | rnd | seReg | sneReg | drw =>
    simp [encode, decodeWord]
  case ldReg | or | and | xor | addReg | sub | shr | subn | shl =>
    rw [encode, decodeWord_arith (fieldFamily_XYN ..)]
    simp [decodeArith]
  case skp | sknp =>
    rw [encode, decodeWord_keys (fieldFamily_XKK ..)]
    simp [decodeKeys]
  case ldVxDt | ldVxK | ldDtVx | ldStVx | addI | ldF | ldB | ldMemVx | ldVxMem =>
    rw [encode, decodeWord_misc (fieldFamily_XKK ..)]
    simp [decodeMisc]

/-- Decoding the bytes of a word, whatever bytes follow (20_memory R54). -/
theorem decode_bytesOfWord {w : Word} {i : Instr} (h : decodeWord w = .instr i) (rest : List Byte) :
    decode (bytesOfWord w ++ rest) = .instr i rest := by
  simp [bytesOfWord, decode, h]

/-- Settles O1: the bytes of a word decode as the word does, and the decoder undoes the encoder. -/
theorem decodeOfEncodedInstruction : Obligations.DecodeOfEncodedInstruction :=
  fun i rest => decode_bytesOfWord (decodeWord_encode i) rest

/-! ## Encoding what was decoded (R76) -/

/-- The word an answer of the decoder is about. -/
def Decoded.word : Decoded → Word
  | .instr i => encode i
  | .unimplemented op => op

theorem decodeArith_word {w : Word} (hf : fieldFamily w = 0x8) : (decodeArith w).word = w := by
  unfold decodeArith
  split
  case h_10 => rfl
  all_goals exact formatXYN_fields hf (BitVec.eq_of_toNat_eq ‹_›)

theorem decodeKeys_word {w : Word} (hf : fieldFamily w = 0xE) : (decodeKeys w).word = w := by
  unfold decodeKeys
  split
  case h_3 => rfl
  all_goals exact formatXKK_fields hf (BitVec.eq_of_toNat_eq ‹_›)

theorem decodeMisc_word {w : Word} (hf : fieldFamily w = 0xF) : (decodeMisc w).word = w := by
  unfold decodeMisc
  split
  case h_10 => rfl
  all_goals exact formatXKK_fields hf (BitVec.eq_of_toNat_eq ‹_›)

/-- The decoder drops no field of a word: its answer still holds the whole word (R76, R77). -/
@[simp] theorem decodeWord_word (w : Word) : (decodeWord w).word = w := by
  unfold decodeWord
  split
  case h_1 =>
    split
    · next h => exact h.symm
    · split
      · next h => exact h.symm
      · rfl
  case h_2 hf | h_3 hf | h_11 hf | h_12 hf => exact formatNNN_fields (BitVec.eq_of_toNat_eq hf)
  case h_4 hf | h_5 hf | h_7 hf | h_8 hf | h_13 hf => exact formatXKK_fields (BitVec.eq_of_toNat_eq hf) rfl
  case h_6 hf | h_10 hf =>
    split
    · next hn => exact formatXYN_fields (BitVec.eq_of_toNat_eq hf) hn
    · rfl
  case h_14 hf => exact formatXYN_fields (BitVec.eq_of_toNat_eq hf) rfl
  case h_9 hf => exact decodeArith_word (BitVec.eq_of_toNat_eq hf)
  case h_15 hf => exact decodeKeys_word (BitVec.eq_of_toNat_eq hf)
  case h_16 =>
    have hF : (fieldFamily w).toNat = 0xF := by
      have hlt := (fieldFamily w).isLt
      simp only [imp_false] at *
      omega
    exact decodeMisc_word (BitVec.eq_of_toNat_eq hF)

theorem encode_of_decodeWord {w : Word} {i : Instr} (h : decodeWord w = .instr i) : encode i = w := by
  have hw := decodeWord_word w
  rwa [h] at hw

/-- An unimplemented answer carries the decoded word itself (R77). -/
theorem word_of_unimplemented {w u : Word} (h : decodeWord w = .unimplemented u) : u = w := by
  have hw := decodeWord_word w
  rwa [h] at hw

/-- Settles O2: the decoder's answer holds the whole word. -/
theorem decodedWordReencodes : Obligations.DecodedWordReencodes :=
  fun _ _ => encode_of_decodeWord

/-! ## The opcode map (R75) -/

/-- Every instruction's word matches its own row (R75). -/
theorem Laws.OpcodeRow.all : ∀ i : Instr, Statement i
  | .cls => cls
  | .ret => ret
  | .jp nnn => jp nnn
  | .call nnn => call nnn
  | .seImm x kk => seImm x kk
  | .sneImm x kk => sneImm x kk
  | .seReg x y => seReg x y
  | .ldImm x kk => ldImm x kk
  | .addImm x kk => addImm x kk
  | .ldReg x y => ldReg x y
  | .or x y => or x y
  | .and x y => and x y
  | .xor x y => xor x y
  | .addReg x y => addReg x y
  | .sub x y => sub x y
  | .shr x y => shr x y
  | .subn x y => subn x y
  | .shl x y => shl x y
  | .sneReg x y => sneReg x y
  | .ldI nnn => ldI nnn
  | .jpV0 nnn => jpV0 nnn
  | .rnd x kk => rnd x kk
  | .drw x y n => drw x y n
  | .skp x => skp x
  | .sknp x => sknp x
  | .ldVxDt x => ldVxDt x
  | .ldVxK x => ldVxK x
  | .ldDtVx x => ldDtVx x
  | .ldStVx x => ldStVx x
  | .addI x => addI x
  | .ldF x => ldF x
  | .ldB x => ldB x
  | .ldMemVx x => ldMemVx x
  | .ldVxMem x => ldVxMem x

/-- A word that matches a row is the encoding of an instruction (R75): one instruction per row, in the
map's order, its operands read from the word. -/
theorem exists_encode_of_rowMatches (w : Word) :
    ∀ row ∈ opcodeMap, rowMatches row w = true → ∃ i, encode i = w := by
  simp only [opcodeMap, List.forall_mem_cons]
  exact ⟨
    fun h => ⟨.cls, ((rowMatches_fixed _ _).1 h).symm⟩,
    fun h => ⟨.ret, ((rowMatches_fixed _ _).1 h).symm⟩,
    fun h => ⟨.jp (fieldNnn w), formatNNN_of_rowMatches h⟩,
    fun h => ⟨.call (fieldNnn w), formatNNN_of_rowMatches h⟩,
    fun h => ⟨.seImm (fieldX w) (fieldKk w), formatXKK_of_rowMatches_family h⟩,
    fun h => ⟨.sneImm (fieldX w) (fieldKk w), formatXKK_of_rowMatches_family h⟩,
    fun h => ⟨.seReg (fieldX w) (fieldY w), formatXYN_of_rowMatches_function h⟩,
    fun h => ⟨.ldImm (fieldX w) (fieldKk w), formatXKK_of_rowMatches_family h⟩,
    fun h => ⟨.addImm (fieldX w) (fieldKk w), formatXKK_of_rowMatches_family h⟩,
    fun h => ⟨.ldReg (fieldX w) (fieldY w), formatXYN_of_rowMatches_function h⟩,
    fun h => ⟨.or (fieldX w) (fieldY w), formatXYN_of_rowMatches_function h⟩,
    fun h => ⟨.and (fieldX w) (fieldY w), formatXYN_of_rowMatches_function h⟩,
    fun h => ⟨.xor (fieldX w) (fieldY w), formatXYN_of_rowMatches_function h⟩,
    fun h => ⟨.addReg (fieldX w) (fieldY w), formatXYN_of_rowMatches_function h⟩,
    fun h => ⟨.sub (fieldX w) (fieldY w), formatXYN_of_rowMatches_function h⟩,
    fun h => ⟨.shr (fieldX w) (fieldY w), formatXYN_of_rowMatches_function h⟩,
    fun h => ⟨.subn (fieldX w) (fieldY w), formatXYN_of_rowMatches_function h⟩,
    fun h => ⟨.shl (fieldX w) (fieldY w), formatXYN_of_rowMatches_function h⟩,
    fun h => ⟨.sneReg (fieldX w) (fieldY w), formatXYN_of_rowMatches_function h⟩,
    fun h => ⟨.ldI (fieldNnn w), formatNNN_of_rowMatches h⟩,
    fun h => ⟨.jpV0 (fieldNnn w), formatNNN_of_rowMatches h⟩,
    fun h => ⟨.rnd (fieldX w) (fieldKk w), formatXKK_of_rowMatches_family h⟩,
    fun h => ⟨.drw (fieldX w) (fieldY w) (fieldN w), formatXYN_of_rowMatches_family h⟩,
    fun h => ⟨.skp (fieldX w), formatXKK_of_rowMatches_byte h⟩,
    fun h => ⟨.sknp (fieldX w), formatXKK_of_rowMatches_byte h⟩,
    fun h => ⟨.ldVxDt (fieldX w), formatXKK_of_rowMatches_byte h⟩,
    fun h => ⟨.ldVxK (fieldX w), formatXKK_of_rowMatches_byte h⟩,
    fun h => ⟨.ldDtVx (fieldX w), formatXKK_of_rowMatches_byte h⟩,
    fun h => ⟨.ldStVx (fieldX w), formatXKK_of_rowMatches_byte h⟩,
    fun h => ⟨.addI (fieldX w), formatXKK_of_rowMatches_byte h⟩,
    fun h => ⟨.ldF (fieldX w), formatXKK_of_rowMatches_byte h⟩,
    fun h => ⟨.ldB (fieldX w), formatXKK_of_rowMatches_byte h⟩,
    fun h => ⟨.ldMemVx (fieldX w), formatXKK_of_rowMatches_byte h⟩,
    fun h => ⟨.ldVxMem (fieldX w), formatXKK_of_rowMatches_byte h⟩,
    List.forall_mem_nil _⟩

/-- Settles O3: a decoded word is the encoding of its instruction, and so matches that row; a word that
matches a row is an encoding, and so decodes. -/
theorem decoderFollowsOpcodeMap : Obligations.DecoderFollowsOpcodeMap := by
  intro w
  have matched : ∀ i, decodeWord w = .instr i → ∃ row, opcodeMap[i.row]? = some row ∧ rowMatches row w = true := by
    intro i hi
    obtain rfl := encode_of_decodeWord hi
    exact Laws.OpcodeRow.all i
  refine ⟨matched, fun hu row hrow => ?_, fun hno => ?_⟩
  · by_contra hm
    obtain ⟨i, rfl⟩ := exists_encode_of_rowMatches w row hrow (by simpa using hm)
    simp at hu
  · cases hd : decodeWord w with
    | instr i =>
      obtain ⟨row, hrow, hm⟩ := matched i hd
      exact absurd hm (by simp [hno row (List.mem_of_getElem? hrow)])
    | unimplemented u => rw [word_of_unimplemented hd]

/-- Where one word matches two rows, their match values agree on the digits both rows fix. -/
theorem rowMatches_agree {r q : Word × Word} {w : Word} (hr : rowMatches r w = true)
    (hq : rowMatches q w = true) : r.2 &&& q.1 = q.2 &&& r.1 := by
  simp only [rowMatches, beq_iff_eq] at hr hq
  rw [← hr, ← hq, BitVec.and_assoc, BitVec.and_assoc, BitVec.and_comm r.1]

/-- Two rows of the map differ in a digit that both fix (R75). -/
theorem opcodeMap_pairwise_differ : opcodeMap.Pairwise fun r q => r.2 &&& q.1 ≠ q.2 &&& r.1 := by
  decide

/-- Settles O4: two rows of the map differ in a digit that both fix, where a word matching both would agree. -/
theorem opcodeRowsAreDisjoint : Obligations.OpcodeRowsAreDisjoint := by
  intro w j k r q hj hk hr hq
  obtain ⟨hj', rfl⟩ := List.getElem?_eq_some_iff.1 hj
  obtain ⟨hk', rfl⟩ := List.getElem?_eq_some_iff.1 hk
  have differ := List.pairwise_iff_getElem.1 opcodeMap_pairwise_differ
  rcases Nat.lt_trichotomy j k with hlt | heq | hgt
  · exact absurd (rowMatches_agree hr hq) (differ j k hj' hk' hlt)
  · exact heq
  · exact absurd (rowMatches_agree hq hr) (differ k j hk' hj' hgt)

/-! ## Words of the spec's examples (95_test_vectors) -/

/-- Settles O5, by evaluation of the decoder on the twelve words. -/
theorem specWordsDecode : Obligations.SpecWordsDecode := by
  unfold Obligations.SpecWordsDecode
  decide

end Sys2Proof
end

section
/-! PROOFS, 40_cycle. The turn of an agent: the core's step by mode, and the turns without a step
(R90, R98, R99, R100; 60 R227). -/

namespace Sys2Proof.Machine

variable {s : State}

theorem step_of_core_turn (h : s.nextTurn = .core) : step s = coreStep s.takeTurn := by
  simp only [step, turnStep, h]

theorem step_of_tick_turn (h : s.nextTurn = .tick) : step s = .next (tick s.takeTurn) := by
  simp only [step, turnStep, h]

theorem coreStep_of_no_step (h : s.mode = .idle ∨ s.mode = .stopped ∨ s.mode = .faulted) :
    coreStep s = .next s := by
  rcases h with e | e | e <;> simp only [coreStep, e]

theorem coreStep_of_not_running (hm : s.mode = .run ∨ ∃ x, s.mode = .awaitKey x)
    (hr : s.running = false) : coreStep s = .next (stopCore s) := by
  rcases hm with e | ⟨x, e⟩ <;> simp [coreStep, e, hr]

theorem coreStep_of_run (hm : s.mode = .run) (hr : s.running = true) : coreStep s = runCycle s := by
  simp [coreStep, hm, hr]

theorem coreStep_of_awaitKey {x : Nibble} (hm : s.mode = .awaitKey x) (hr : s.running = true) :
    coreStep s = .next (poll x s) := by
  simp [coreStep, hm, hr]

theorem tick_of_not_running (hr : s.running = false) : tick s = s := by
  simp [tick, hr]

/-- Settles O13: in both modes the core's step is the stop step. -/
theorem coreStopsWhenNotRunning : Obligations.CoreStopsWhenNotRunning := by
  intro s hturn hrun
  have stops : (s.mode = .run ∨ ∃ x, s.mode = .awaitKey x) →
      step s = .next { s.takeTurn with mode := .stopped } := fun hm =>
    (step_of_core_turn hturn).trans (coreStep_of_not_running (s := s.takeTurn) hm hrun)
  exact ⟨fun hm => stops (.inl hm), fun x hm => stops (.inr ⟨x, hm⟩)⟩

/-- Settles O14, by the core's step in the three modes without one and the tick with `running` false. -/
theorem agentWithoutStepPassesItsTurn : Obligations.AgentWithoutStepPassesItsTurn := by
  refine fun s => ⟨fun hturn hm => ?core, fun hturn hrun => ?tick⟩
  case core =>
    exact (step_of_core_turn hturn).trans (coreStep_of_no_step (s := s.takeTurn) hm)
  case tick =>
    rw [step_of_tick_turn hturn, tick_of_not_running (s := s.takeTurn) hrun]

end Sys2Proof.Machine
end

section
/-! PROOFS, 40_cycle. `Valid()`: its items as numbers, in their order (R95), and when it is evaluated (R93, R96). -/

namespace Sys2Proof.Machine

theorem isOdd_iff (a : Word) : isOdd a = true ↔ a.toNat % 2 = 1 := by
  simp [isOdd, BitVec.getLsbD, Nat.testBit_zero]

theorem strictRange_iff (a : Word) : strictRange a = true ↔ 0x200 ≤ a.toNat ∧ a.toNat ≤ 0xFFE := by
  simp [strictRange]

/-- An address that strict mode admits for PC and for stack entries (R95). -/
def StrictAddress (a : Word) : Prop := a.toNat % 2 = 0 ∧ 0x200 ≤ a.toNat ∧ a.toNat ≤ 0xFFE

theorem strictAddress_iff (a : Word) : (!isOdd a && strictRange a) = true ↔ StrictAddress a := by
  rw [Bool.and_eq_true, strictRange_iff, Bool.not_eq_true', ← Bool.not_eq_true, isOdd_iff,
    Nat.mod_two_not_eq_one]
  exact Iff.rfl

/-- The answers of `Valid()`, each with the items that hold before the one it names (R95). -/
inductive ValidityCase (s : State) : Option InvalidReason → Prop where
  | pcOdd (hodd : s.pc.toNat % 2 = 1) : ValidityCase s (some .pcOdd)
  | pcRange (heven : s.pc.toNat % 2 = 0) (hout : ¬(0x200 ≤ s.pc.toNat ∧ s.pc.toNat ≤ 0xFFE)) :
      ValidityCase s (some .pcRange)
  | stackDepth (hpc : StrictAddress s.pc) (hdeep : 16 < s.stack.length) : ValidityCase s (some .stackDepth)
  | stackEntry (hpc : StrictAddress s.pc) (hlen : s.stack.length ≤ 16)
      (hbad : ∃ e ∈ s.stack, ¬StrictAddress e) : ValidityCase s (some .stackEntry)
  | valid (hpc : StrictAddress s.pc) (hlen : s.stack.length ≤ 16)
      (hall : ∀ e ∈ s.stack, StrictAddress e) : ValidityCase s none

/-- The types of V and I make items 1 and 2 hold (log entry 20); the others are tested in order. -/
theorem firstInvalid_cases (s : State) : ValidityCase s (firstInvalid s) := by
  have hv : (s.v.toList.all fun b => decide (b.toNat ≤ 255)) = true :=
    List.all_eq_true.2 fun b _ => decide_eq_true (Nat.le_of_lt_succ b.isLt)
  have hi : decide (s.i.toNat < memSize) = true := decide_eq_true s.i.isLt
  have hdeep : (!decide (s.stack.length ≤ stackDepth)) = true ↔ 16 < s.stack.length := by
    rw [Bool.not_eq_true', decide_eq_false_iff_not, Nat.not_le]
    exact Iff.rfl
  have hentries : (s.stack.all fun e => !isOdd e && strictRange e) = true ↔ ∀ e ∈ s.stack, StrictAddress e := by
    simp only [List.all_eq_true, strictAddress_iff]
  simp only [firstInvalid, hv, hi, Bool.not_true, Bool.false_eq_true, if_false]
  split
  · next hodd => exact .pcOdd ((isOdd_iff _).1 hodd)
  next hodd =>
  have heven : s.pc.toNat % 2 = 0 := Nat.mod_two_not_eq_one.1 (mt (isOdd_iff _).2 hodd)
  split
  · next hrange => exact .pcRange heven fun h => by simp [(strictRange_iff _).2 h] at hrange
  next hrange =>
  have hpc : StrictAddress s.pc := ⟨heven, (strictRange_iff _).1 (by simpa using hrange)⟩
  split
  · next hdepth => exact .stackDepth hpc (hdeep.1 hdepth)
  next hdepth =>
  have hlen : s.stack.length ≤ 16 := Nat.not_lt.1 (mt hdeep.2 hdepth)
  split
  · next hbad =>
    rw [Bool.not_eq_true', ← Bool.not_eq_true, hentries] at hbad
    exact .stackEntry hpc hlen (by simpa only [not_forall, exists_prop] using hbad)
  · next hall => exact .valid hpc hlen (hentries.1 (by simpa using hall))

/-- The PC of a valid state (R95). -/
theorem strictAddress_pc_of_valid {s : State} (h : firstInvalid s = none) : StrictAddress s.pc := by
  have hcase : ValidityCase s none := h ▸ firstInvalid_cases s
  cases hcase with
  | valid hpc => exact hpc

/-- Settles O9: the answers of `Valid()` come with items that exclude one another. -/
theorem validityChecksItemsInOrder : Obligations.ValidityChecksItemsInOrder := by
  intro s
  have hcase := firstInvalid_cases s
  generalize firstInvalid s = answer at hcase ⊢
  cases hcase with
  | pcOdd hodd => simp [hodd]
  | pcRange heven hout => simp +contextual [heven, not_and.1 hout]
  | stackDepth hpc hdeep =>
    obtain ⟨heven, hlo, hhi⟩ := hpc
    simp [heven, hlo, hhi, hdeep, Nat.not_le.2 hdeep]
  | stackEntry hpc hlen hbad =>
    obtain ⟨heven, hlo, hhi⟩ := hpc
    simpa [heven, hlo, hhi, hlen, Nat.not_lt.2 hlen, StrictAddress] using hbad
  | valid hpc hlen hall =>
    obtain ⟨heven, hlo, hhi⟩ := hpc
    simpa [heven, hlo, hhi, hlen, Nat.not_lt.2 hlen, StrictAddress] using hall

theorem strictFailure_of_strict {s : State} (h : s.params.strict = true) : strictFailure s = firstInvalid s := by
  simp [strictFailure, h]

theorem strictFailure_of_not_strict {s : State} (h : s.params.strict = false) : strictFailure s = none := by
  simp [strictFailure, h]

theorem strictFailure_of_valid {s : State} (h : firstInvalid s = none) : strictFailure s = none := by
  simp [strictFailure, h]

/-- A validation point reads the parameters, PC and the stack. -/
theorem strictFailure_congr {s t : State} (hparams : t.params = s.params) (hpc : t.pc = s.pc)
    (hst : t.stack = s.stack) : strictFailure t = strictFailure s := by
  rw [strictFailure, strictFailure, hparams, firstInvalid_congr hpc hst]

/-- Where a validation point passes, a strict state is valid (R93, R96). -/
theorem valid_of_strictFailure_none {s : State} (h : strictFailure s = none) (hs : s.params.strict = true) :
    firstInvalid s = none :=
  (strictFailure_of_strict hs).symm.trans h

end Sys2Proof.Machine
end

section
/-! PROOFS, 40_cycle. A cycle: one equation for each way it ends (R91 to R97). -/

namespace Sys2Proof.Machine

variable {s t : State} {op : Word} {i : Instr}

/-- A word is fetched where both its bytes are in memory (R91). -/
theorem fetch_of_pc_lt (h : s.pc.toNat + 1 < memSize) :
    fetch s = .ok (wordOfBytes (s.byteAt s.pc.toNat) (s.byteAt (s.pc.toNat + 1))) := by
  rcases fetch_cases s with ⟨_, e⟩ | ⟨hpc, _⟩ | ⟨hpc, _⟩
  · exact e
  all_goals omega

theorem fetch_of_pc_last (h : s.pc.toNat + 1 = memSize) : fetch s = .error (.memOutOfRange memSize) := by
  rcases fetch_cases s with ⟨hpc, _⟩ | ⟨_, e⟩ | ⟨hpc, _⟩
  case inr.inl => exact e
  all_goals omega

theorem fetch_of_pc_ge (h : memSize ≤ s.pc.toNat) : fetch s = .error (.memOutOfRange s.pc.toNat) := by
  rcases fetch_cases s with ⟨hpc, _⟩ | ⟨hpc, _⟩ | ⟨_, e⟩
  case inr.inr => exact e
  all_goals omega

theorem AtCycle.step_eq (h : AtCycle s) : step s = runCycle s.takeTurn := by
  obtain ⟨hturn, hm, hr⟩ := h
  exact (step_of_core_turn hturn).trans (coreStep_of_run (s := s.takeTurn) hm hr)

/-- The word a cycle executes is the one it fetches. -/
theorem Executes.decodeWord_eq (hi : Executes s i) (hf : fetch s = .ok op) : decodeWord op = .instr i := by
  obtain ⟨_, op', hf', hd⟩ := hi
  cases hf.symm.trans hf'
  exact hd

theorem AtCycle.step_fetch_fault (hc : AtCycle s) {f : Fault} (hf : fetch s = .error f) :
    step s = .next (takeFault f s.pc none s.takeTurn) := by
  have hf' : fetch s.takeTurn = .error f := hf
  simp only [hc.step_eq, runCycle, hf', takeTurn_pc]

/-- The pre-execute validation fails, whatever the word (R93). -/
theorem AtCycle.step_invalid (hc : AtCycle s) (hf : fetch s = .ok op) {r : InvalidReason}
    (hv : strictFailure (advance s.takeTurn) = some r) :
    step s = .next (takeFault (.invalidState r) s.pc (some op) (advance s.takeTurn)) := by
  have hf' : fetch s.takeTurn = .ok op := hf
  simp only [hc.step_eq, runCycle, hf', hv, takeTurn_pc]

/-- The instruction runs and the cycle ends (R94 to R97). -/
theorem AtCycle.step_executed (hc : AtCycle s) (hf : fetch s = .ok op)
    (hv : strictFailure (advance s.takeTurn) = none) (hd : decodeWord op = .instr i)
    (he : exec i (advance s.takeTurn) = .next t) : step s = .next (endCycle s.pc op t) := by
  have hf' : fetch s.takeTurn = .ok op := hf
  simp only [hc.step_eq, runCycle, hf', hv, executeWord, hd, he, takeTurn_pc]

theorem endCycle_of_run (a op : Word) (h : t.mode = .run) : endCycle a op t = finish a op t := by
  simp only [endCycle, h]

theorem endCycle_of_awaitKey (a op : Word) {x : Nibble} (h : t.mode = .awaitKey x) : endCycle a op t = t := by
  simp only [endCycle, h]

theorem endCycle_of_faulted (a op : Word) (h : t.mode = .faulted) : endCycle a op t = t := by
  simp only [endCycle, h]

theorem finish_of_invalid (a op : Word) {r : InvalidReason} (h : strictFailure t = some r) :
    finish a op t = takeFault (.invalidState r) a (some op) t := by
  simp only [finish, h]

theorem finish_of_valid (a op : Word) (h : strictFailure t = none) : finish a op t = publish t := by
  simp only [finish, h]

/-- Settles O6: every instruction answers a next state, which the cycle ends. -/
theorem stepRunsDecodedInstruction : Obligations.StepRunsDecodedInstruction := by
  intro s op i hc hpc hop hv hd _
  have hf : fetch s = .ok op := hop ▸ fetch_of_pc_lt hpc
  obtain ⟨t, he⟩ := exec_next i (advance s.takeTurn)
  rw [hc.step_executed hf hv hd he, he]

/-- Settles O7, by the three ranges of PC; a fetch fault is taken before the advance. -/
theorem fetchReadsWordOrFaults : Obligations.FetchReadsWordOrFaults := by
  refine fun s => ⟨fetch_of_pc_lt, fun hc hpc => ?_, fun hc hpc => ?_⟩
  · exact ⟨_, hc.step_fetch_fault (fetch_of_pc_ge hpc), rfl, rfl, rfl, rfl⟩
  · exact ⟨_, hc.step_fetch_fault (fetch_of_pc_last (congrArg (· + 1) hpc)), rfl, rfl, rfl, rfl⟩

/-- A completed instruction whose post-execute validation passes is published (R96, R97). -/
theorem Executes.step_published (hi : Executes s i) (hv : strictFailure (advance s.takeTurn) = none)
    (he : exec i (advance s.takeTurn) = .next t) (hm : t.mode = .run) (hvt : strictFailure t = none) :
    step s = .next (publish t) := by
  obtain ⟨hc, op, hf, hd⟩ := hi
  rw [hc.step_executed hf hv hd he, endCycle_of_run _ _ hm, finish_of_valid _ _ hvt]

/-- Settles O10: each clause fixes the answers of the two validation points, and so the way the cycle ends. -/
theorem strictModeValidatesAroundInstruction : Obligations.StrictModeValidatesAroundInstruction := by
  intro s
  have hpre : s.params.strict = true →
      strictFailure (advance s.takeTurn) = firstInvalid (advance s.takeTurn) :=
    strictFailure_of_strict (s := advance s.takeTurn)
  have hparams : ∀ {i t}, exec i (advance s.takeTurn) = .next t → t.params = s.params := fun he =>
    (exec_control he).params
  have hpost : ∀ {i t}, s.params.strict = true → exec i (advance s.takeTurn) = .next t →
      strictFailure t = firstInvalid t := fun hs he => strictFailure_of_strict (by rw [hparams he, hs])
  refine ⟨fun op r hc hf hs hv => ?before, fun op i t r hi hf hs hv he hm hvt => ?after,
    fun i t hi hs hv he hm hvt => ?passed, fun i t hi hs he hm => ?unchecked⟩
  case before => exact hc.step_invalid hf ((hpre hs).trans hv)
  case after =>
    rw [hi.atCycle.step_executed hf ((hpre hs).trans hv) (hi.decodeWord_eq hf) he,
      endCycle_of_run _ _ hm, finish_of_invalid _ _ ((hpost hs he).trans hvt)]
    rfl
  case passed => exact hi.step_published ((hpre hs).trans hv) he hm ((hpost hs he).trans hvt)
  case unchecked =>
    have hpre_none : strictFailure (advance s.takeTurn) = none :=
      strictFailure_of_not_strict (s := advance s.takeTurn) hs
    exact hi.step_published hpre_none he hm (strictFailure_of_not_strict (by rw [hparams he, hs]))

end Sys2Proof.Machine
end

section
/-! PROOFS, 40_cycle. How a cycle ends, with the validation it passed; publication (R97) and the strict
mode's invariant (R101). -/

namespace Sys2Proof.Machine

/-- The ends of a cycle: a fault, the wait for a key, or an instruction completed in u and published. -/
inductive CycleEnd (s t : State) : Prop where
  | faults (hmode : t.mode = .faulted) (hout : t.out = s.out)
  | waits (x : Nibble) (hv : strictFailure (advance s.takeTurn) = none)
      (h : t = { advance s.takeTurn with mode := .awaitKey x })
  | completes (u : State) (hmode : u.mode = .run) (hv : strictFailure u = none) (h : t = publish u)

/-- The end of a cycle whose instruction, executed in mode Run, has left u (R94, R96, R97). -/
theorem CycleEnd.of_exec {s u : State} {i : Instr} (hm : s.mode = .run)
    (hv : strictFailure (advance s.takeTurn) = none) (he : exec i (advance s.takeTurn) = .next u)
    (a op : Word) : CycleEnd s (endCycle a op u) := by
  have hx := exec_control he
  rcases hx.ends with ⟨em, _, _⟩ | ⟨x, _, rfl⟩ | ⟨f, _, em, _⟩
  · have hrun : u.mode = .run := em.trans hm
    rw [endCycle_of_run a op hrun]
    rcases finish_cases a op u with ⟨r, _, e⟩ | ⟨hvu, e⟩ <;> rw [e]
    · exact .faults rfl hx.out
    · exact .completes u hrun hvu rfl
  · rw [endCycle_of_awaitKey (x := x) a op rfl]
    exact .waits x hv rfl
  · rw [endCycle_of_faulted a op em]
    exact .faults em hx.out

theorem AtCycle.cycleEnd {s t : State} (hc : AtCycle s) (h : step s = .next t) : CycleEnd s t := by
  rw [hc.step_eq] at h
  rcases runCycle_cases s.takeTurn with ⟨f, _, e⟩ | ⟨op, r, _, _, e⟩ | ⟨op, w, _, _, _, e⟩ |
    ⟨op, i, u, _, hv, _, he, e⟩ <;> rw [e] at h <;> cases h
  · exact .faults rfl rfl
  · exact .faults rfl rfl
  · exact .faults rfl rfl
  · exact .of_exec hc.mode_run hv he _ op

/-- Settles O11, by the ends of a cycle. -/
theorem completedCyclePublishes : Obligations.CompletedCyclePublishes := by
  intro s t hc h
  cases hc.cycleEnd h with
  | faults hm ho => exact .inr (.inl ⟨hm, ho⟩)
  | waits x _ h => exact .inr (.inr ⟨x, by rw [h], by rw [h]; rfl⟩)
  | completes u hm _ h => exact .inl (h ▸ ⟨hm, rfl, rfl⟩)

/-- The invariant reads the parameters, PC, the stack, and whether a fault was raised. -/
theorem StrictInv.congr {s t : State} (hs : StrictInv s) (hparams : t.params = s.params) (hpc : t.pc = s.pc)
    (hst : t.stack = s.stack) (hm : s.mode ≠ .faulted) : StrictInv t := fun hstrict _ =>
  (firstInvalid_congr hpc hst).trans (hs (hparams ▸ hstrict) hm)

theorem strictInv_of_faulted {s : State} (h : s.mode = .faulted) : StrictInv s := fun _ hm => absurd h hm

theorem strictInv_of_passed {s t : State} (hv : strictFailure s = none) (hparams : t.params = s.params)
    (hpc : t.pc = s.pc) (hst : t.stack = s.stack) : StrictInv t := fun hstrict _ =>
  (firstInvalid_congr hpc hst).trans (valid_of_strictFailure_none hv (hparams ▸ hstrict))

/-- Whatever the state was, a cycle ends Faulted or behind a validation point that passed. -/
theorem CycleEnd.strictInv {s t : State} (h : CycleEnd s t) : StrictInv t := by
  cases h with
  | faults hm => exact strictInv_of_faulted hm
  | waits x hv h => exact strictInv_of_passed hv (h ▸ rfl) (h ▸ rfl) (h ▸ rfl)
  | completes u _ hv h => exact strictInv_of_passed hv (h ▸ rfl) (h ▸ rfl) (h ▸ rfl)

/-- A cycle ends Faulted or validated; every other step keeps the parameters, PC and the stack. -/
theorem step_strictInv {s t : State} (hs : StrictInv s) (h : step s = .next t) : StrictInv t := by
  by_cases hf : t.mode = .faulted
  · exact strictInv_of_faulted hf
  cases step_next_cases h with
  | fetchFault hc | earlyFault hc => exact (hc.cycleEnd h).strictInv
  | execute _ _ hi => exact (hi.atCycle.cycleEnd h).strictInv
  | poll x k hm _ hclose =>
    exact hs.congr hclose.params hclose.pc_pieces.1 hclose.stack (by simp [hm])
  | stop hm _ h =>
    subst h
    exact hs.congr rfl rfl rfl (by rcases hm with e | ⟨x, e⟩ <;> simp [e])
  | start hm h =>
    subst h
    exact hs.congr rfl rfl rfl (by simp [hm])
  | pass h | tick _ _ h | load _ _ h | halt h | signal _ _ h =>
    subst h
    exact hs.congr rfl rfl rfl hf

/-- Settles O21: the invariant of a step, and that a cycle starts in mode Run, so in a valid state. -/
theorem stepKeepsStrictValidity : Obligations.StepKeepsStrictValidity := by
  refine ⟨fun s t => step_strictInv, fun s hs hstrict hc => ?_⟩
  have hvalid : firstInvalid s = none := hs hstrict (by simp [hc.mode_run])
  exact strictAddress_pc_of_valid hvalid

end Sys2Proof.Machine
end

section
/-! PROOFS, 40_cycle. The poll (R99). -/

namespace Sys2Proof.Machine

theorem poll_of_no_key {s : State} (x : Nibble) (h : s.pressed = none) : poll x s = s := by
  simp only [poll, h]

/-- V[x] takes the key and the core is back in mode Run: what a poll with a key hands to `finish()`. -/
def takeRecordedKey (x k : Nibble) (s : State) : State := (s.setV x (keyByte k)).setMode .run

theorem poll_of_key {s : State} (x : Nibble) {k : Nibble} (h : s.pressed = some k) :
    poll x s = finish (s.pc - 2) (encode (.ldVxK x)) (takeRecordedKey x k s) := by
  simp only [poll, h, takeRecordedKey]

theorem keyByte_toNat (k : Nibble) : (keyByte k).toNat = k.toNat := by
  have := k.isLt
  rw [keyByte, BitVec.toNat_setWidth]
  omega

/-- Ending a step writes no register, whichever way it ends. -/
theorem Closes.v {u t : State} (h : Closes u t) : t.v = u.v := by
  cases h <;> rfl

/-- Settles O15: a poll with a key is `finish()` after V[x] has taken it, whose validation decides how it ends. -/
theorem pollCompletesKeyWait : Obligations.PollCompletesKeyWait := by
  intro s x hturn hm hrun
  have hstep : step s = .next (poll x s.takeTurn) :=
    (step_of_core_turn hturn).trans (coreStep_of_awaitKey (s := s.takeTurn) hm hrun)
  refine ⟨fun hp => by rw [hstep, poll_of_no_key (s := s.takeTurn) x hp], fun k hk => ?_⟩
  rw [poll_of_key (s := s.takeTurn) x hk] at hstep
  have hvalidation : strictFailure (takeRecordedKey x k s.takeTurn) = strictFailure s :=
    strictFailure_congr rfl rfl rfl
  have hclose := finish_closes (s.takeTurn.pc - 2) (encode (.ldVxK x)) (takeRecordedKey x k s.takeTurn)
  refine ⟨_, hstep, ?key, fun r hr => ?keeps, fun a => congrArg (Mem.read · a) hclose.mem,
    (congrArg Pieces.pressed hclose.pc_pieces.2).trans hk, fun hvalid => ?valid, fun r hstrict hinvalid => ?invalid⟩
  case key => rw [getV_of_v hclose.v, takeRecordedKey, getV_setMode, getV_setV_same, keyByte_toNat]
  case keeps =>
    rw [getV_of_v hclose.v, takeRecordedKey, getV_setMode,
      getV_setV_other _ _ (List.ne_of_not_mem_cons hr), getV_takeTurn]
  case valid =>
    have hnone : strictFailure s = none := by
      rcases hvalid with hlax | hnone
      · exact strictFailure_of_not_strict hlax
      · exact strictFailure_of_valid hnone
    rw [finish_of_valid _ _ (hvalidation.trans hnone)]
    rfl
  case invalid =>
    rw [finish_of_invalid _ _ (hvalidation.trans ((strictFailure_of_strict hstrict).trans hinvalid))]
    exact ⟨rfl, rfl, rfl, _, rfl, rfl⟩

end Sys2Proof.Machine
end

section
/-! PROOFS, 41_control. What the obligations on control transfer share: the targets as numbers (R111, R118),
a post-execute validation that fails on PC (40_cycle R96), and a fetch at the end of memory (40_cycle R91). -/

namespace Sys2Proof.Machine

variable {t u : State}

theorem target_toNat (nnn : Addr) : (target nnn).toNat = nnn.toNat :=
  BitVec.toNat_setWidth_of_le (by decide)

/-- The sum of Bnnn does not wrap in 16 bits (R118). -/
theorem offsetTarget_toNat (nnn : Addr) (b : Byte) : (offsetTarget nnn b).toNat = nnn.toNat + b.toNat := by
  unfold offsetTarget
  have hn := nnn.isLt
  have hb := b.isLt
  rw [BitVec.toNat_add, BitVec.toNat_setWidth, BitVec.toNat_setWidth]
  omega

theorem isOdd_target (nnn : Addr) : isOdd (target nnn) = true ↔ nnn.toNat % 2 = 1 := by
  rw [isOdd_iff, target_toNat]

theorem firstInvalid_of_pc_odd (h : t.pc.toNat % 2 = 1) : firstInvalid t = some .pcOdd := by
  have hcase := firstInvalid_cases t
  generalize firstInvalid t = answer at hcase ⊢
  cases hcase with
  | pcOdd => rfl
  | pcRange heven => omega
  | stackDepth hpc | stackEntry hpc | valid hpc => have := hpc.1; omega

theorem firstInvalid_of_pc_range (heven : t.pc.toNat % 2 = 0) (hout : ¬(0x200 ≤ t.pc.toNat ∧ t.pc.toNat ≤ 0xFFE)) :
    firstInvalid t = some .pcRange := by
  have hcase := firstInvalid_cases t
  generalize firstInvalid t = answer at hcase ⊢
  cases hcase with
  | pcOdd hodd => omega
  | pcRange => rfl
  | stackDepth hpc | stackEntry hpc | valid hpc => exact absurd hpc.2 hout

theorem postFaults_of_invalid (a op : Word) {r : InvalidReason} (hs : t.params.strict = true)
    (hm : t.mode = .run) (hv : firstInvalid t = some r) : PostFaults a op r t := by
  rw [PostFaults, endCycle_of_run _ _ hm, finish_of_invalid _ _ ((strictFailure_of_strict hs).trans hv)]

/-- Outside strict mode an instruction that ends in mode Run completes its cycle (40_cycle R96, R97). -/
theorem endCycle_of_not_strict (a op : Word) (hs : t.params.strict = false) (hm : t.mode = .run) :
    endCycle a op t = publish t := by
  rw [endCycle_of_run _ _ hm, finish_of_valid _ _ (strictFailure_of_not_strict hs)]

theorem takesFault_raiseIn (i : Instr) (f : Fault) (s : State) : TakesFault i f s (raiseIn i f s) :=
  ⟨rfl, rfl, rfl, rfl⟩

/-- From 0xFFF on a word does not lie in memory, and the cycle faults at its fetch (40_cycle R91). -/
theorem AtCycle.fault_of_pc_ge (hc : AtCycle t) (hpc : 0xFFF ≤ t.pc.toNat) (h : step t = .next u) :
    ∃ a, u.fault = some { fault := .memOutOfRange a, addr := t.pc, op := none } := by
  have hf : ∃ a, fetch t = .error (.memOutOfRange a) := by
    rcases fetch_cases t with ⟨hlt, _⟩ | ⟨_, e⟩ | ⟨_, e⟩
    · exact absurd hlt (Nat.not_lt.2 (Nat.succ_le_succ hpc))
    · exact ⟨_, e⟩
    · exact ⟨_, e⟩
  obtain ⟨a, hf⟩ := hf
  rw [hc.step_fetch_fault hf] at h
  cases h
  exact ⟨a, rfl⟩

end Sys2Proof.Machine
end

section
/-! PROOFS, 41_control. The jumps (R111, R118). -/

namespace Sys2Proof.Machine

/-- Settles O36: the target is nnn as a number, which decides the next fetch and the validation. -/
theorem jpSetsPc : Obligations.JpSetsPc := by
  intro nnn s
  have hpc : (s.setPc (target nnn)).pc.toNat = nnn.toNat := target_toNat nnn
  refine ⟨decodeWord_encode (.jp nnn), s.setPc (target nnn), rfl, hpc, rfl, fun _ => rfl,
    fun hlt => ?fetches, fun hlast => ?fetchFaults, fun a op hs hm => ?publishes,
    fun a op hs hm => ⟨fun hodd => ?odd, fun heven hlow => ?low⟩⟩
  case fetches =>
    have hmem : (s.setPc (target nnn)).pc.toNat + 1 < memSize := by
      rw [hpc]
      exact Nat.succ_lt_succ hlt
    rw [fetch_of_pc_lt hmem, hpc]
    rfl
  case fetchFaults => exact fetch_of_pc_last (by rw [hpc, hlast]; rfl)
  case publishes => exact endCycle_of_not_strict a op hs hm
  case odd => exact postFaults_of_invalid a op hs hm (firstInvalid_of_pc_odd (by rw [hpc, hodd]))
  case low => exact postFaults_of_invalid a op hs hm (firstInvalid_of_pc_range (by rw [hpc, heven]) (by omega))

/-- Settles O41: the sum does not wrap, and past the last word of memory the next fetch faults. -/
theorem jpV0AddsOffset : Obligations.JpV0AddsOffset := by
  intro nnn s
  refine ⟨decodeWord_encode (.jpV0 nnn), s.setPc (offsetTarget nnn (s.getV 0)), rfl,
    offsetTarget_toNat nnn (s.getV 0), offsetTarget_toNat_le nnn (s.getV 0), rfl, fun _ => rfl,
    fun u hturn hm hr hpc hstep => AtCycle.fault_of_pc_ge ⟨hturn, hm, hr⟩ hpc hstep,
    fun a op hs hm => ⟨fun hodd => ?odd, fun heven hout => ?range⟩⟩
  case odd => exact postFaults_of_invalid a op hs hm (firstInvalid_of_pc_odd hodd)
  case range => exact postFaults_of_invalid a op hs hm (firstInvalid_of_pc_range heven (by omega))

end Sys2Proof.Machine
end

section
/-! PROOFS, 41_control. RET and CALL: one equation for each way they end (R110, R112). -/

namespace Sys2Proof.Machine

variable {s : State} {nnn : Addr}

theorem exec_ret_of_pop {rest : List Word} {a : Word} (h : s.stack = rest ++ [a]) :
    exec .ret s = .next { s with stack := rest, pc := a } := by
  simp [exec, execRet, h, State.setPc]

theorem exec_ret_of_empty (h : s.stack = []) : exec .ret s = .next (raiseIn .ret .stackUnderflow s) := by
  simp [exec, execRet, h]

theorem exec_call_of_room (hlen : s.stack.length < 16) (htarget : ¬(s.params.strict = true ∧ nnn.toNat % 2 = 1)) :
    exec (.call nnn) s = .next { s with stack := s.stack ++ [s.pc], pc := target nnn } := by
  have hdepth : ¬s.stack.length ≥ stackDepth := Nat.not_le.2 hlen
  have hok : ¬(s.params.strict && isOdd (target nnn)) = true := by rwa [Bool.and_eq_true, isOdd_target]
  simp only [exec, execCall, if_neg hdepth, if_neg hok, State.setPc]

/-- The depth is checked first, whatever the target (R112). -/
theorem exec_call_of_full (hlen : 16 ≤ s.stack.length) :
    exec (.call nnn) s = .next (raiseIn (.call nnn) (.stackOverflow nnn) s) :=
  if_pos hlen

theorem exec_call_of_odd (hlen : s.stack.length < 16) (hs : s.params.strict = true) (hodd : nnn.toNat % 2 = 1) :
    exec (.call nnn) s = .next (raiseIn (.call nnn) (.invalidAddress nnn) s) := by
  have hdepth : ¬s.stack.length ≥ stackDepth := Nat.not_le.2 hlen
  have hbad : (s.params.strict && isOdd (target nnn)) = true := by
    rw [Bool.and_eq_true, isOdd_target]
    exact ⟨hs, hodd⟩
  simp only [exec, execCall, if_neg hdepth, if_pos hbad]

/-- A valid stack holds only addresses strict mode admits (40_cycle R95). -/
theorem strictAddress_of_mem_stack {e : Word} (h : firstInvalid s = none) (he : e ∈ s.stack) : StrictAddress e := by
  have hcase : ValidityCase s none := h ▸ firstInvalid_cases s
  cases hcase with
  | valid _ _ hall => exact hall e he

/-- Settles O35: the popped value is a stack entry, so a valid state's is admitted, and PC's validation
decides the others. -/
theorem retPopsPc : Obligations.RetPopsPc := by
  refine ⟨decodeWord_encode .ret, fun s => ⟨fun rest a hst => ⟨exec_ret_of_pop hst, fun hvalid => ?admitted,
    fun at_ op hs hm => ⟨fun hodd => ?odd, fun heven hout => ?range⟩⟩, fun hst => ?underflow⟩⟩
  case admitted =>
    have ha : StrictAddress a := strictAddress_of_mem_stack hvalid (by simp [hst])
    simpa using (strictAddress_iff a).2 ha
  case odd => exact postFaults_of_invalid at_ op hs hm (firstInvalid_of_pc_odd ((isOdd_iff a).1 hodd))
  case range =>
    rw [← Bool.not_eq_true, isOdd_iff, Nat.mod_two_not_eq_one] at heven
    rw [← Bool.not_eq_true, strictRange_iff] at hout
    exact postFaults_of_invalid at_ op hs hm (firstInvalid_of_pc_range heven hout)
  case underflow => exact ⟨_, exec_ret_of_empty hst, takesFault_raiseIn .., rfl, hst⟩

/-- Settles O37, by the three ways a CALL ends; a target it jumps to in strict mode is even. -/
theorem callPushesAndJumps : Obligations.CallPushesAndJumps := by
  refine fun nnn s => ⟨decodeWord_encode (.call nnn), fun hlen htarget => ?jumps, fun hlen => ?overflow,
    fun hlen hs hodd => ?odd⟩
  case jumps =>
    refine ⟨_, exec_call_of_room hlen htarget, target_toNat nnn, rfl, rfl, fun _ => rfl,
      fun a op hs hm hlow => postFaults_of_invalid a op hs hm (firstInvalid_of_pc_range ?_ ?_)⟩
    · exact (target_toNat nnn).symm ▸ Nat.mod_two_not_eq_one.1 fun hodd => htarget ⟨hs, hodd⟩
    · exact (target_toNat nnn).symm ▸ fun hin => absurd hin.1 (Nat.not_le.2 hlow)
  case overflow => exact ⟨_, exec_call_of_full hlen, takesFault_raiseIn .., rfl, rfl⟩
  case odd => exact ⟨_, exec_call_of_odd hlen hs hodd, takesFault_raiseIn .., rfl, rfl⟩

/-- Settles O38: what CALL pushed is what RET pops. -/
theorem returnUndoesCall : Obligations.ReturnUndoesCall := fun _ _ hlen htarget =>
  ⟨_, exec_call_of_room hlen htarget, fun _ hst => exec_ret_of_pop hst⟩

end Sys2Proof.Machine
end

section
/-! PROOFS, 41_control. The four conditional skips (R113 to R117). -/

namespace Sys2Proof.Machine

variable {a b : Byte}

/-- Equal operands: SE skips and SNE does not. -/
theorem skipIf_of_eq (h : a = b) (s : State) :
    skipIf (a == b) s = { s with pc := s.pc + 2 } ∧ skipIf (a != b) s = s := by
  rw [bne, beq_iff_eq.2 h]
  exact ⟨skipIf_true s, skipIf_false s⟩

/-- Different operands: SNE skips and SE does not. -/
theorem skipIf_of_ne (h : a ≠ b) (s : State) :
    skipIf (a == b) s = s ∧ skipIf (a != b) s = { s with pc := s.pc + 2 } := by
  rw [bne, beq_false_of_ne h]
  exact ⟨skipIf_false s, skipIf_true s⟩

theorem exec_seImm (x : Nibble) (kk : Byte) (s : State) :
    exec (.seImm x kk) s = .next (skipIf (s.getV x == kk) s) := rfl

theorem exec_sneImm (x : Nibble) (kk : Byte) (s : State) :
    exec (.sneImm x kk) s = .next (skipIf (s.getV x != kk) s) := rfl

theorem exec_seReg (x y : Nibble) (s : State) :
    exec (.seReg x y) s = .next (skipIf (s.getV x == s.getV y) s) := rfl

theorem exec_sneReg (x y : Nibble) (s : State) :
    exec (.sneReg x y) s = .next (skipIf (s.getV x != s.getV y) s) := rfl

/-- The two families of register skips have no word with another low nibble than 0 (30_encoding R77). -/
theorem decodeWord_register_skip_unimplemented {w : Word} (hf : fieldFamily w = 0x5 ∨ fieldFamily w = 0x9)
    (hn : fieldN w ≠ 0) : decodeWord w = .unimplemented w := by
  rcases hf with hf | hf <;> simp only [decodeWord, hf, if_neg hn] <;> rfl

/-- Settles O39, by whether V[x] is kk. -/
theorem skipsOnImmediate : Obligations.SkipsOnImmediate := by
  intro x kk s
  rw [exec_seImm, exec_sneImm]
  refine ⟨decodeWord_encode (.seImm x kk), decodeWord_encode (.sneImm x kk), fun h => ?equal, fun h => ?different⟩
  case equal => exact (skipIf_of_eq h s).imp (congrArg Host.Outcome.next) (congrArg Host.Outcome.next)
  case different => exact (skipIf_of_ne h s).imp (congrArg Host.Outcome.next) (congrArg Host.Outcome.next)

/-- Settles O40, by whether V[x] is V[y]; with x = y it is. -/
theorem skipsOnRegisters : Obligations.SkipsOnRegisters := by
  intro x y s
  simp only [exec_seReg, exec_sneReg]
  refine ⟨decodeWord_encode (.seReg x y), decodeWord_encode (.sneReg x y), fun n hn => ?unimplemented,
    fun h => ?equal, fun h => ?different, ?same⟩
  case unimplemented =>
    have hfn : ∀ op : Nibble, fieldN (formatXYN op x y n) ≠ 0 := fun op => by rwa [fieldN_XYN]
    exact ⟨decodeWord_register_skip_unimplemented (.inl (fieldFamily_XYN ..)) (hfn _),
      decodeWord_register_skip_unimplemented (.inr (fieldFamily_XYN ..)) (hfn _)⟩
  case equal => exact (skipIf_of_eq h s).imp (congrArg Host.Outcome.next) (congrArg Host.Outcome.next)
  case different => exact (skipIf_of_ne h s).imp (congrArg Host.Outcome.next) (congrArg Host.Outcome.next)
  case same => exact (skipIf_of_eq rfl s).imp (congrArg Host.Outcome.next) (congrArg Host.Outcome.next)

end Sys2Proof.Machine
end

section
/-! PROOFS, 42_alu. What an instruction writes to the registers: the frame of one write and of a result
with its flag, in either order (R142, R143; 92 D7). -/

namespace Sys2Proof.Machine

variable {s t : State} {x : Nibble}

theorem WritesOnlyV.refl (xs : List Nibble) (s : State) : WritesOnlyV xs s s :=
  ⟨rfl, fun _ _ => rfl, fun _ => rfl⟩

/-- One more write to a register of the list. -/
theorem WritesOnlyV.setV {xs : List Nibble} (h : WritesOnlyV xs s t) (hx : x ∈ xs) (b : Byte) :
    WritesOnlyV xs s (t.setV x b) := by
  obtain ⟨hframe, hkeeps, hmem⟩ := h
  refine ⟨?frame, fun r hr => ?keeps, hmem⟩
  case frame => rw [hframe]; rfl
  case keeps => rw [getV_setV_other t b (ne_of_mem_of_not_mem hx hr).symm, hkeeps r hr]

theorem writesOnlyV_setV (x : Nibble) (b : Byte) (s : State) : WritesOnlyV [x] s (s.setV x b) :=
  (WritesOnlyV.refl [x] s).setV (by simp) b

theorem writesOnlyV_resultThenFlag (x : Nibble) (result flag : Byte) (s : State) :
    WritesOnlyV [x, 0xF] s (resultThenFlag x result flag s) :=
  ((WritesOnlyV.refl _ s).setV (by simp) result).setV (by simp [vf]) flag

theorem writesOnlyV_flagThenResult (x : Nibble) (flag result : Byte) (s : State) :
    WritesOnlyV [x, 0xF] s (flagThenResult x flag result s) :=
  ((WritesOnlyV.refl _ s).setV (by simp [vf]) flag).setV (by simp) result

/-- The flag, written last, is what VF holds, also at x = F. -/
@[simp] theorem getV_vf_resultThenFlag (x : Nibble) (result flag : Byte) (s : State) :
    (resultThenFlag x result flag s).getV 0xF = flag :=
  getV_setV_same _ vf flag

theorem getV_resultThenFlag (hx : x ≠ 0xF) (result flag : Byte) (s : State) :
    (resultThenFlag x result flag s).getV x = result :=
  (getV_setV_other _ flag hx).trans (getV_setV_same s x result)

/-- The result, written last, is what V[x] holds, also at x = F. -/
@[simp] theorem getV_flagThenResult (x : Nibble) (flag result : Byte) (s : State) :
    (flagThenResult x flag result s).getV x = result :=
  getV_setV_same _ x result

theorem getV_vf_flagThenResult (hx : x ≠ 0xF) (flag result : Byte) (s : State) :
    (flagThenResult x flag result s).getV 0xF = flag :=
  (getV_setV_other _ result hx.symm).trans (getV_setV_same s vf flag)

end Sys2Proof.Machine
end

section
/-! PROOFS, 42_alu. The results and flags as numbers (R136 to R140, R142). -/

namespace Sys2Proof.Machine

variable (a b : Byte)

@[simp] theorem sumByte_toNat : (sumByte a b).toNat = (a.toNat + b.toNat) % 256 := by
  simp [sumByte]

/-- The difference modulo 256 is the one of the integers: the model's 256 keeps it above 0. -/
theorem diffByte_toNat : ((diffByte a b).toNat : Int) = ((a.toNat : Int) - b.toNat) % 256 := by
  have hb : b.toNat < 256 := b.isLt
  have hd : (diffByte a b).toNat = (a.toNat + 256 - b.toNat) % 256 := by simp [diffByte]
  omega

theorem flagByte_carryOf : flagByte (carryOf a b) = if a.toNat + b.toNat > 255 then 1 else 0 := by
  simp [flagByte, carryOf]

theorem flagByte_noBorrowOf : flagByte (noBorrowOf a b) = if a.toNat ≥ b.toNat then 1 else 0 := by
  simp [flagByte, noBorrowOf]

@[simp] theorem shiftRight_toNat : (shiftRight a).toNat = a.toNat / 2 := by
  simp [shiftRight, Nat.shiftRight_eq_div_pow]

@[simp] theorem shiftLeft_toNat : (shiftLeft a).toNat = 2 * a.toNat % 256 := by
  simp [shiftLeft, Nat.shiftLeft_eq, Nat.mul_comm]

@[simp] theorem lowBit_toNat : (lowBit a).toNat = a.toNat % 2 := by
  simp [lowBit, Nat.and_one_is_mod]

/-- The mask of R140 changes nothing: what is left of a byte shifted by 7 is one bit. -/
@[simp] theorem highBit_toNat : (highBit a).toNat = a.toNat / 128 := by
  have ha : a.toNat < 256 := a.isLt
  have hbit : (highBit a).toNat = a.toNat / 128 % 2 := by
    simp [highBit, Nat.and_one_is_mod, Nat.shiftRight_eq_div_pow]
  omega

end Sys2Proof.Machine
end

section
/-! PROOFS, 42_alu. Loads, arithmetic, logic and shifts (R130 to R140). -/

namespace Sys2Proof.Machine

/-- Settles O42: the one write of a register. -/
theorem ldImmWritesVx : Obligations.LdImmWritesVx := fun x kk s =>
  ⟨decodeWord_encode (.ldImm x kk), s.setV x kk, rfl, getV_setV_same s x kk, writesOnlyV_setV x kk s⟩

/-- Settles O43: the one write of a register, of the sum modulo 256. -/
theorem addImmWrapsWithoutFlag : Obligations.AddImmWrapsWithoutFlag := fun x kk s =>
  ⟨decodeWord_encode (.addImm x kk), s.setV x (sumByte (s.getV x) kk), rfl,
    by rw [getV_setV_same, sumByte_toNat], writesOnlyV_setV x _ s⟩

/-- Settles O44: each is the one write of V[x]. -/
theorem copyAndLogicWriteVxOnly : Obligations.CopyAndLogicWriteVxOnly := by
  intro x y s
  have writes (b : Byte) : (s.setV x b).getV x = b ∧ WritesOnlyV [x] s (s.setV x b) :=
    ⟨getV_setV_same s x b, writesOnlyV_setV x b s⟩
  exact ⟨decodeWord_encode (.ldReg x y), decodeWord_encode (.or x y), decodeWord_encode (.and x y),
    decodeWord_encode (.xor x y), ⟨_, rfl, writes _⟩, ⟨_, rfl, writes _⟩, ⟨_, rfl, writes _⟩,
    ⟨_, rfl, writes _⟩⟩

/-- Settles O45: the carry is computed from the values before and written over V[x] at x = F. -/
theorem addRegSetsCarry : Obligations.AddRegSetsCarry := by
  refine fun x y s => ⟨decodeWord_encode (.addReg x y), _, rfl, fun hx => ?sum, ?carry,
    writesOnlyV_resultThenFlag ..⟩
  case sum => rw [getV_resultThenFlag hx, sumByte_toNat]
  case carry => rw [getV_vf_resultThenFlag, flagByte_carryOf]

/-- What a - b leaves in V[x] and VF: SUB and SUBN differ in the operands' order alone (R137, R139). -/
theorem subtraction_writes (x : Nibble) (a b : Byte) (s : State) :
    let t := resultThenFlag x (diffByte a b) (flagByte (noBorrowOf a b)) s
    (x ≠ 0xF → ((t.getV x).toNat : Int) = ((a.toNat : Int) - b.toNat) % 256) ∧
    t.getV 0xF = (if a.toNat ≥ b.toNat then 1 else 0) ∧ WritesOnlyV [x, 0xF] s t := by
  refine ⟨fun hx => ?difference, ?noBorrow, writesOnlyV_resultThenFlag ..⟩
  case difference => rw [getV_resultThenFlag hx, diffByte_toNat]
  case noBorrow => rw [getV_vf_resultThenFlag, flagByte_noBorrowOf]

/-- Settles O46: one subtraction with the operands in either order. -/
theorem subtractsSetNoBorrow : Obligations.SubtractsSetNoBorrow := fun x y s =>
  ⟨decodeWord_encode (.sub x y), decodeWord_encode (.subn x y),
    ⟨_, rfl, subtraction_writes x (s.getV x) (s.getV y) s⟩,
    ⟨_, rfl, subtraction_writes x (s.getV y) (s.getV x) s⟩⟩

/-- Settles O47: the result is written over the flag at x = F; no y is read. -/
theorem shiftsKeepResultOverFlag : Obligations.ShiftsKeepResultOverFlag := by
  refine fun x y s => ⟨decodeWord_encode (.shr x y), decodeWord_encode (.shl x y),
    ⟨_, rfl, ?right, fun hx => ?low, writesOnlyV_flagThenResult ..⟩,
    ⟨_, rfl, ?left, fun hx => ?high, writesOnlyV_flagThenResult ..⟩, fun _ => ⟨rfl, rfl⟩⟩
  case right => rw [getV_flagThenResult, shiftRight_toNat]
  case low => rw [getV_vf_flagThenResult hx, lowBit_toNat]
  case left => rw [getV_flagThenResult, shiftLeft_toNat]
  case high => rw [getV_vf_flagThenResult hx, highBit_toNat]

end Sys2Proof.Machine
end

section
/-! PROOFS, 42_alu. The random byte (R141): what a draw is and what taking it does to the inputs. -/

namespace Sys2Proof.Machine

/-- The given byte comes first (log entry 6). -/
theorem nextByte_given {s : State} {b : Byte} {rest : List Byte} (h : s.inputs.bytes = b :: rest) :
    s.nextByte = b := by
  rw [State.nextByte, h, List.headD_cons]

/-- Taking a byte consumes the first given one, if any (log entry 6). -/
@[simp] theorem takeByte_bytes (s : State) : s.takeByte.inputs.bytes = s.inputs.bytes.tail := rfl

@[simp] theorem takeByte_clock (s : State) : s.takeByte.inputs.clock = s.inputs.clock + 1 := rfl

@[simp] theorem takeByte_agenda (s : State) : s.takeByte.inputs.agenda = s.inputs.agenda := rfl

@[simp] theorem takeByte_keys (s : State) : s.takeByte.inputs.keys = s.inputs.keys := rfl

@[simp] theorem getV_takeByte (s : State) (r : Nibble) : s.takeByte.getV r = s.getV r := rfl

/-- Settles O48: the frame is that of one write after the draw; the draw by whether a byte is given. -/
theorem rndMasksAFreshDraw : Obligations.RndMasksAFreshDraw := by
  intro x kk s
  obtain ⟨_, hkeeps, hmem⟩ := writesOnlyV_setV x (s.nextByte &&& kk) s.takeByte
  refine ⟨decodeWord_encode (.rnd x kk), s.takeByte.setV x (s.nextByte &&& kk), s.nextByte, rfl,
    getV_setV_same .., hkeeps, hmem, rfl, fun b rest hgiven => ⟨nextByte_given hgiven, ?rest⟩,
    fun hfree => ⟨nextByte_free s hfree, ?none⟩, takeByte_clock s, takeByte_agenda s, takeByte_keys s⟩
  case rest => rw [setV_inputs, takeByte_bytes, hgiven, List.tail_cons]
  case none => rw [setV_inputs, takeByte_bytes, hfree, List.tail_nil]

end Sys2Proof.Machine
end

section
/-! PROOFS, 43_index_memory. What the obligations on I and memory share: a write to I (10_state R28), the
fault of an effect made in part (60_exceptions R221, R222), and the end of Fx55 and Fx65. -/

namespace Sys2Proof.Machine

variable {a : Nat} {e : Effect} {f : Fault} {i : Instr} {s u : State} {x : Nibble}

/-- I itself is an address of memory. -/
theorem indexed_zero_lt (s : State) : indexed s 0 < memSize :=
  s.i.isLt

theorem writesOnlyI_setI (b : Addr) (s : State) : WritesOnlyI s (s.setI b) :=
  ⟨rfl, fun _ => rfl⟩

theorem writeIndex_of_lt (h : a < memSize) (s : State) : writeIndex a s = .done (s.setI (BitVec.ofNat 12 a)) :=
  if_pos h

theorem writeIndex_of_le (h : memSize ≤ a) (s : State) : writeIndex a s = .raised (.indexOutOfRange a) s :=
  if_neg (Nat.not_lt.2 h)

/-- A number below MEM_SIZE fits in I. -/
theorem setI_ofNat_toNat (h : a < memSize) (s : State) : (s.setI (BitVec.ofNat 12 a)).i.toNat = a :=
  Nat.mod_eq_of_lt h

/-- An effect that wrote registers and memory alone before it raised f ends in the fault and leaves I
as it was. -/
theorem Effect.outcome_of_raised (he : e = .raised f u) (hu : u = { s with v := u.v, mem := u.mem }) :
    ∃ t, e.outcome i = .next t ∧ TakesFault i f s t ∧ t.i = s.i := by
  rw [he, hu]
  exact ⟨_, rfl, takesFault_raiseIn i f s, rfl⟩

/-- Fx55 and Fx65 move I past the last register. -/
theorem andThen_bumpIndex_of_lt (he : e = .done u) (hi : u.i = s.i) (h : s.i.toNat + x.toNat + 1 < memSize) :
    e.andThen (bumpIndex x) = .done (u.setI (BitVec.ofNat 12 (s.i.toNat + x.toNat + 1))) := by
  rw [he, Effect.done_andThen, bumpIndex, hi, writeIndex_of_lt h]

/-- The last register was the last cell of memory, and I cannot move past it (10_state R28). -/
theorem andThen_bumpIndex_of_last (he : e = .done u) (hi : u.i = s.i) (h : s.i.toNat + x.toNat + 1 = memSize) :
    e.andThen (bumpIndex x) = .raised (.indexOutOfRange memSize) u := by
  rw [he, Effect.done_andThen, bumpIndex, hi, h, writeIndex_of_le le_rfl]

theorem andThen_bumpIndex_of_raised (he : e = .raised f u) : e.andThen (bumpIndex x) = .raised f u := by
  rw [he, Effect.raised_andThen]

end Sys2Proof.Machine
end

section
/-! PROOFS, 43_index_memory. LD I, LD F and ADD I: the instructions that write I alone (R150 to R152). -/

namespace Sys2Proof.Machine

/-- Five times a byte fits in I: the glyph's address does not wrap (R152). -/
theorem glyphAddr_toNat (b : Byte) : (glyphAddr b).toNat = b.toNat * 5 := by
  have hb : b.toNat < 256 := b.isLt
  rw [glyphAddr, BitVec.toNat_ofNat, Nat.mod_eq_of_lt (by omega)]

/-- Settles O49: each is the one write of I. -/
theorem loadsOfIndexWriteI : Obligations.LoadsOfIndexWriteI :=
  ⟨fun nnn s => ⟨decodeWord_encode (.ldI nnn), s.setI nnn, rfl, rfl, writesOnlyI_setI nnn s⟩,
    fun x s => ⟨decodeWord_encode (.ldF x), s.setI (glyphAddr (s.getV x)), rfl, glyphAddr_toNat _,
      writesOnlyI_setI _ s⟩⟩

/-- Settles O50, by whether the sum is an address. -/
theorem addIAddsOrFaults : Obligations.AddIAddsOrFaults := by
  intro x s
  refine ⟨decodeWord_encode (.addI x), fun hlt => ?adds, fun hle => ?faults⟩
  case adds =>
    exact ⟨_, congrArg (Effect.outcome (.addI x)) (writeIndex_of_lt hlt s), setI_ofNat_toNat hlt s,
      writesOnlyI_setI _ s⟩
  case faults => exact Effect.outcome_of_raised (writeIndex_of_le hle s) rfl

end Sys2Proof.Machine
end

section
/-! PROOFS, 43_index_memory. LD B: the three digits as numbers, and the three stores as one (R153). -/

namespace Sys2Proof.Machine

variable {a : Nat} {s : State}

theorem hundreds_toNat (b : Byte) : (hundreds b).toNat = b.toNat / 100 := by
  have hb : b.toNat < 256 := b.isLt
  rw [hundreds, BitVec.toNat_ofNat]
  omega

theorem tens_toNat (b : Byte) : (tens b).toNat = b.toNat / 10 % 10 := by
  rw [tens, BitVec.toNat_ofNat]
  omega

theorem ones_toNat (b : Byte) : (ones b).toNat = b.toNat % 10 := by
  rw [ones, BitVec.toNat_ofNat]
  omega

theorem storeByte_of_lt (h : a < memSize) (b : Byte) (s : State) :
    storeByte a b s = .done { s with mem := s.mem.write a b } := by
  rw [storeByte, memWrite_of_lt h]

theorem storeByte_of_le (h : memSize ≤ a) (b : Byte) (s : State) :
    storeByte a b s = .raised (.memOutOfRange a) s := by
  rw [storeByte, memWrite_of_le h]

/-- Below the top the three stores are one of three bytes in a row. -/
theorem storeBcd_of_lt (h : indexed s 2 < memSize) (b : Byte) :
    storeBcd b s = .done { s with mem := s.mem.writeList (indexed s 0) [hundreds b, tens b, ones b] } := by
  have h1 : indexed s 1 < memSize := Nat.lt_of_succ_lt h
  rw [storeBcd, storeByte_of_lt (indexed_zero_lt s), Effect.done_andThen, storeByte_of_lt h1,
    Effect.done_andThen, storeByte_of_lt h]
  rfl

/-- Past the top the first store outside memory raises, at MEM_SIZE: I itself lies in memory. -/
theorem storeBcd_of_le (h : memSize ≤ indexed s 2) (b : Byte) :
    ∃ u, storeBcd b s = .raised (.memOutOfRange memSize) u ∧ u = { s with mem := u.mem } := by
  have h0 := indexed_zero_lt s
  rw [storeBcd, storeByte_of_lt h0, Effect.done_andThen]
  rcases storeByte_cases (indexed s 1) (tens b) { s with mem := s.mem.write (indexed s 0) (hundreds b) }
    with ⟨h1, e⟩ | ⟨h1, e⟩ <;> rw [e]
  · have htop : indexed s 2 = memSize := Nat.le_antisymm h1 h
    rw [Effect.done_andThen, storeByte_of_le h, htop]
    exact ⟨_, rfl, rfl⟩
  · have htop : indexed s 1 = memSize := Nat.le_antisymm h0 h1
    rw [Effect.raised_andThen, htop]
    exact ⟨_, rfl, rfl⟩

/-- Settles O51, by whether the three bytes lie in memory; they read back as bytes stored in a row. -/
theorem ldBStoresDecimalDigits : Obligations.LdBStoresDecimalDigits := by
  intro x s
  refine ⟨decodeWord_encode (.ldB x), fun hinv hlt => ?stores, fun hle => ?faults⟩
  case stores =>
    have hdone := storeBcd_of_lt hlt (s.getV x)
    obtain ⟨_, _, hothers⟩ := hdone ▸ storeBcd_frame (s.getV x) s
    have hread (k : Nat) (hk : k < 3) := Mem.read_writeList_get (k := k)
      (bs := [hundreds (s.getV x), tens (s.getV x), ones (s.getV x)]) hinv (Nat.succ_le_of_lt hlt) hk
    exact ⟨_, congrArg (Effect.outcome (.ldB x)) hdone,
      (congrArg BitVec.toNat (hread 0 (by decide))).trans (hundreds_toNat _),
      (congrArg BitVec.toNat (hread 1 (by decide))).trans (tens_toNat _),
      (congrArg BitVec.toNat (hread 2 (by decide))).trans (ones_toNat _), hothers, rfl⟩
  case faults =>
    obtain ⟨u, hraised, hmem⟩ := storeBcd_of_le hle (s.getV x)
    exact Effect.outcome_of_raised hraised (by rw [hmem])

end Sys2Proof.Machine
end

section
/-! PROOFS, 43_index_memory. The stores of Fx55 and the loads of Fx65, from V0 to Vx, and back (R154, R155). -/

namespace Sys2Proof.Machine

variable {s : State} {x : Nibble}

/-- All of Fx55's stores, while they stay in memory (R154). -/
theorem storeRegs_of_le (h : s.i.toNat + x.toNat + 1 ≤ memSize) :
    ∃ u, storeRegs (x.toNat + 1) 0 s = .done u ∧ u = { s with mem := u.mem } ∧
      (s.mem.wf = true → ∀ r : Nibble, r.toNat ≤ x.toNat → u.byteAt (indexed s r.toNat) = s.getV r) ∧
      ∀ a, a < indexed s 0 ∨ indexed s x.toNat < a → u.byteAt a = s.byteAt a := by
  obtain ⟨u, hu, hstored⟩ := storeRegs_done (n := x.toNat + 1) (j := 0) (s := s) (by simp only [indexed]; omega)
  have hframe := storeRegs_frame (x.toNat + 1) 0 s
  rw [hu] at hframe
  obtain ⟨hmem, _, hothers⟩ := hframe
  refine ⟨u, hu, hmem, fun hwf r hr => ?stored, fun a ha => hothers a ?outside⟩
  case stored =>
    have := hstored hwf r.toNat (Nat.zero_le _) (by omega)
    rwa [BitVec.ofNat_toNat, BitVec.setWidth_eq] at this
  case outside => simp only [indexed] at ha ⊢; omega

/-- All of Fx65's loads, while they stay in memory (R155). -/
theorem loadRegs_of_le (h : s.i.toNat + x.toNat + 1 ≤ memSize) :
    ∃ u, loadRegs (x.toNat + 1) 0 s = .done u ∧ u = { s with v := u.v } ∧
      (∀ r : Nibble, r.toNat ≤ x.toNat → u.getV r = s.byteAt (indexed s r.toNat)) ∧
      ∀ r : Nibble, x.toNat < r.toNat → u.getV r = s.getV r := by
  have hx : 0 + (x.toNat + 1) ≤ 16 := by have := x.isLt; omega
  obtain ⟨u, hu, hloaded⟩ := loadRegs_done hx (s := s) (by simp only [indexed]; omega)
  have hframe := loadRegs_frame (x.toNat + 1) 0 s
  rw [hu] at hframe
  obtain ⟨hv, hothers⟩ := hframe
  exact ⟨u, hu, hv, fun r hr => hloaded r (Nat.zero_le _) (by omega), fun r hr => hothers hx r (by omega)⟩

/-- Settles O52, by where the last store lies: below the last cell, past it, or in it. -/
theorem ldMemVxStoresRegisters : Obligations.LdMemVxStoresRegisters := by
  intro x s
  refine ⟨decodeWord_encode (.ldMemVx x), fun hinv hlt => ?stores, fun hle => ?memFault, fun hlast => ?indexFault⟩
  case stores =>
    obtain ⟨u, hu, hmem, hstored, hothers⟩ := storeRegs_of_le (Nat.le_of_lt hlt)
    have hdone := andThen_bumpIndex_of_lt hu (congrArg State.i hmem) hlt
    exact ⟨_, congrArg (Effect.outcome (.ldMemVx x)) hdone, hstored hinv, hothers, setI_ofNat_toNat hlt u,
      by rw [hmem]; rfl⟩
  case memFault =>
    obtain ⟨u, hu, hmem⟩ := storeRegs_raised (n := x.toNat + 1) (Nat.le_of_lt (indexed_zero_lt s))
      (by simp only [indexed, memSize]; omega)
    exact Effect.outcome_of_raised (andThen_bumpIndex_of_raised hu) (by rw [hmem])
  case indexFault =>
    obtain ⟨u, hu, hmem, _, _⟩ := storeRegs_of_le (s := s) (x := x) (by rw [hlast]; rfl)
    exact Effect.outcome_of_raised (andThen_bumpIndex_of_last hu (congrArg State.i hmem) (by rw [hlast]; rfl))
      (by rw [hmem])

/-- Settles O53, by where the last load lies: below the last cell, past it, or in it. -/
theorem ldVxMemLoadsRegisters : Obligations.LdVxMemLoadsRegisters := by
  intro x s
  refine ⟨decodeWord_encode (.ldVxMem x), fun hlt => ?loads, fun hle => ?memFault, fun hlast => ?indexFault⟩
  case loads =>
    obtain ⟨u, hu, hv, hloaded, hothers⟩ := loadRegs_of_le (Nat.le_of_lt hlt)
    have hdone := andThen_bumpIndex_of_lt hu (congrArg State.i hv) hlt
    exact ⟨_, congrArg (Effect.outcome (.ldVxMem x)) hdone, hloaded, hothers, setI_ofNat_toNat hlt u,
      by rw [hv]; rfl, fun a => by rw [hv]; rfl⟩
  case memFault =>
    obtain ⟨u, hu, hv⟩ := loadRegs_raised (n := x.toNat + 1) (Nat.le_of_lt (indexed_zero_lt s))
      (by simp only [indexed, memSize]; omega)
    exact Effect.outcome_of_raised (andThen_bumpIndex_of_raised hu) (by rw [hv])
  case indexFault =>
    obtain ⟨u, hu, hv, _, _⟩ := loadRegs_of_le (s := s) (x := x) (by rw [hlast]; rfl)
    exact Effect.outcome_of_raised (andThen_bumpIndex_of_last hu (congrArg State.i hv) (by rw [hlast]; rfl))
      (by rw [hv])

/-- Settles O54: what the load reads is what the store wrote, and both move I by x + 1. -/
theorem loadRestoresStoredRegisters : Obligations.LoadRestoresStoredRegisters := by
  intro x s hinv hlt
  obtain ⟨_, hstore, _, _⟩ := ldMemVxStoresRegisters x s
  obtain ⟨t, ht, hstored, _, hti, _⟩ := hstore hinv hlt
  refine ⟨t, ht, fun u hmem hi => ?_⟩
  obtain ⟨_, hload, _, _⟩ := ldVxMemLoadsRegisters x u
  obtain ⟨w, hw, hloaded, _, hwi, _, _⟩ := hload (by rwa [hi])
  refine ⟨w, hw, BitVec.eq_of_toNat_eq (by rw [hwi, hti, hi]), fun r hr => ?_⟩
  calc w.getV r = u.byteAt (indexed u r.toNat) := hloaded r hr
    _ = t.byteAt (indexed s r.toNat) := by rw [State.byteAt, State.byteAt, indexed, indexed, hmem, hi]
    _ = s.getV r := hstored r hr

end Sys2Proof.Machine
end

section
/-! PROOFS, 44_display. CLS (R174, R175). -/

namespace Sys2Proof.Machine

/-- CLS as one update: FB by the parameter, Disp in any case (R174, R175). -/
theorem exec_cls (s : State) :
    exec .cls s = .next { s with disp := Grid.off, fb := if s.params.clsClearsFb then Grid.off else s.fb } := by
  simp only [exec, execCls, displayClear]
  split <;> rfl

/-- An instruction that ends in mode Run in a valid state publishes its Disp (40_cycle R97). -/
theorem endCycle_out_of_valid (a op : Word) {t : State} (hm : t.mode = .run) (hv : strictFailure t = none) :
    (endCycle a op t).out = some t.disp := by
  rw [endCycle_of_run a op hm, finish_of_valid a op hv, publish_out]

/-- Settles O55: CLS is one update of Disp and FB, and leaves the mode for the cycle's end. -/
theorem clsClearsDisplay : Obligations.ClsClearsDisplay := by
  refine ⟨decodeWord_encode .cls, fun s => ⟨_, exec_cls s, Grid.get_off, fun hclears => ?cleared,
    fun hkeeps => ?kept, rfl, fun _ => rfl, fun hm hv at_ op => endCycle_out_of_valid at_ op hm hv⟩⟩
  case cleared =>
    rw [if_pos hclears]
    exact Grid.get_off
  case kept => simp only [hkeeps, Bool.false_eq_true, if_false]

end Sys2Proof.Machine
end

section
/-! PROOFS, 44_display. Images: XORing one into FB with its collision (R172, R176, R177). Images that
share no pixel may be XORed one after the other, and that is XORing them at once. -/

namespace Sys2Proof.Machine

/-- The on pixels of what is drawn, by column and row. -/
abbrev Image := Nat → Nat → Bool

/-- The image has an on pixel that is on in the grid: a collision (R172). -/
def Overlaps (g : Grid) (img : Image) : Prop :=
  ∃ px py, px < 64 ∧ py < 32 ∧ g.get px py = true ∧ img px py = true

/-- No pixel is on in both images. -/
def Apart (img img' : Image) : Prop := ∀ px py, img px py = true → img' px py = false

/-- What t holds of FB and VF once the image is XORed into FB of s (R172, R176). -/
structure XorsImage (img : Image) (s t : State) : Prop where
  pixel : ∀ px py, px < 64 → py < 32 → t.fb.get px py = (s.fb.get px py ^^ img px py)
  collision : Overlaps s.fb img → t.getV vf = 1
  noCollision : ¬Overlaps s.fb img → t.getV vf = s.getV vf

variable {img img' : Image} {s t u : State}

theorem overlaps_or {g : Grid} :
    Overlaps g (fun px py => img px py || img' px py) ↔ Overlaps g img ∨ Overlaps g img' := by
  simp only [Overlaps, Bool.or_eq_true, and_or_left, exists_or]

theorem XorsImage.of_blank (h : ∀ px py, img px py = false) (s : State) : XorsImage img s s where
  pixel px py _ _ := by rw [h, Bool.xor_false]
  collision := fun ⟨px, py, _, _, _, hon⟩ => by simp [h] at hon
  noCollision _ := rfl

/-- Drawing an image leaves FB as it was where another is on that shares no pixel with it. -/
theorem XorsImage.overlaps_iff (h : XorsImage img s t) (hapart : Apart img img') :
    Overlaps t.fb img' ↔ Overlaps s.fb img' := by
  have same : ∀ px py, px < 64 → py < 32 → img' px py = true → t.fb.get px py = s.fb.get px py := by
    intro px py hpx hpy hon'
    have hoff : img px py = false := by
      by_contra hon
      simp [hapart px py (by simpa using hon)] at hon'
    rw [h.pixel px py hpx hpy, hoff, Bool.xor_false]
  constructor
  · rintro ⟨px, py, hpx, hpy, hg, hon⟩
    exact ⟨px, py, hpx, hpy, same px py hpx hpy hon ▸ hg, hon⟩
  · rintro ⟨px, py, hpx, hpy, hg, hon⟩
    exact ⟨px, py, hpx, hpy, (same px py hpx hpy hon).trans hg, hon⟩

theorem XorsImage.trans (h : XorsImage img s t) (h' : XorsImage img' t u) (hapart : Apart img img') :
    XorsImage (fun px py => img px py || img' px py) s u where
  pixel px py hpx hpy := by
    have hxor : (img px py ^^ img' px py) = (img px py || img' px py) := by
      cases hon : img px py
      · simp
      · simp [hapart px py hon]
    rw [h'.pixel px py hpx hpy, h.pixel px py hpx hpy, Bool.xor_assoc, hxor]
  collision hov := by
    by_cases hov' : Overlaps t.fb img'
    · exact h'.collision hov'
    · have hfirst := (overlaps_or.1 hov).resolve_right (mt (h.overlaps_iff hapart).2 hov')
      rw [h'.noCollision hov', h.collision hfirst]
  noCollision hov := by
    rw [overlaps_or, not_or, ← h.overlaps_iff hapart] at hov
    rw [h'.noCollision hov.2, h.noCollision hov.1]

/-- Drawing a list of images that are pairwise apart draws their union. -/
theorem XorsImage.foldl {draw : State → Nat → State} {images : Nat → Image} {ks : List Nat}
    (hdraw : ∀ k s, XorsImage (images k) s (draw s k))
    (hapart : ks.Pairwise fun j k => Apart (images j) (images k)) (s : State) :
    XorsImage (fun px py => ks.any fun k => images k px py) s (ks.foldl draw s) := by
  induction hapart generalizing s with
  | nil => exact .of_blank (fun _ _ => rfl) s
  | cons hfirst _ ih =>
    refine (hdraw _ s).trans (ih _) fun px py hon => ?_
    exact List.any_eq_false.2 fun k hk => by simp [hfirst k hk px py hon]

end Sys2Proof.Machine
end

section
/-! PROOFS, 44_display. The image of one bit and of one row of a sprite, and that the model draws it (R176). -/

namespace Sys2Proof.Machine

/-- The pixel of one bit of a sprite row, the bit being on (R176). -/
def bitImage (b : Byte) (x0 y bit : Nat) : Image := fun px py =>
  decide (px = (x0 + bit) % 64) && decide (py = y) && spriteBit b bit

/-- The pixels of a sprite row, wrapped (R171, R176). -/
def rowImage (b : Byte) (x0 y : Nat) : Image := fun px py =>
  (List.range 8).any fun bit => bitImage b x0 y bit px py

variable {b b' : Byte} {x0 y y' bit bit' : Nat}

@[simp] theorem bitImage_eq_true {px py : Nat} :
    bitImage b x0 y bit px py = true ↔ (px = (x0 + bit) % 64 ∧ py = y) ∧ spriteBit b bit = true := by
  simp [bitImage]

theorem rowImage_eq_true {px py : Nat} :
    rowImage b x0 y px py = true ↔
      ∃ bit, bit < 8 ∧ (px = (x0 + bit) % 64 ∧ py = y) ∧ spriteBit b bit = true := by
  simp [rowImage]

/-- The left end may be reduced to a column before the bits are placed (R176). -/
theorem rowImage_mod (b : Byte) (x0 y : Nat) : rowImage b (x0 % 64) y = rowImage b x0 y := by
  funext px py
  simp only [rowImage, bitImage, Nat.mod_add_mod]

/-- The bits of a row fall into different columns: 8 are fewer than 64. -/
theorem bitImage_apart (h : bit < bit') (h' : bit' < 8) :
    Apart (bitImage b x0 y bit) (bitImage b x0 y bit') := by
  intro px py hon
  obtain ⟨⟨hpx, _⟩, _⟩ := bitImage_eq_true.1 hon
  rw [← Bool.not_eq_true, bitImage_eq_true]
  rintro ⟨⟨hpx', _⟩, _⟩
  omega

theorem rowImage_apart (h : y ≠ y') : Apart (rowImage b x0 y) (rowImage b' x0 y') := by
  intro px py hon
  obtain ⟨_, _, ⟨_, hpy⟩, _⟩ := rowImage_eq_true.1 hon
  rw [← Bool.not_eq_true, rowImage_eq_true]
  rintro ⟨_, _, ⟨_, hpy'⟩, _⟩
  exact h (hpy.symm.trans hpy')

/-- An on bit flips its pixel, and records in VF whether it was on (R172). -/
theorem xorsImage_xorPixel (hy : y < 32) (hon : spriteBit b bit = true) (s : State) :
    XorsImage (bitImage b x0 y bit) s (xorPixel ((x0 + bit) % 64) y s) := by
  have hx : (x0 + bit) % 64 < 64 := Nat.mod_lt _ (by decide)
  have hov : Overlaps s.fb (bitImage b x0 y bit) ↔ s.fb.get ((x0 + bit) % 64) y = true := by
    constructor
    · rintro ⟨px, py, _, _, hg, himg⟩
      obtain ⟨⟨rfl, rfl⟩, _⟩ := bitImage_eq_true.1 himg
      exact hg
    · exact fun hg => ⟨_, y, hx, hy, hg, bitImage_eq_true.2 ⟨⟨rfl, rfl⟩, hon⟩⟩
  refine ⟨fun px py hpx hpy => ?pixel, fun h => ?collision, fun h => ?noCollision⟩
  case pixel =>
    rw [xorPixel_get, Nat.mod_eq_of_lt hpx, Nat.mod_eq_of_lt hpy, Nat.mod_eq_of_lt hx, Nat.mod_eq_of_lt hy]
    split
    · next hat => obtain ⟨rfl, rfl⟩ := hat; simp [bitImage, hon]
    · next hat => simp [bitImage, ← Bool.decide_and, hat]
  case collision => rw [xorPixel_vf, if_pos (hov.1 h)]
  case noCollision => rw [xorPixel_vf, if_neg (mt hov.2 h)]

theorem xorsImage_drawBit (hy : y < 32) (s : State) :
    XorsImage (bitImage b x0 y bit) s (drawBit b x0 y s bit) := by
  unfold drawBit
  split
  · next hon => exact xorsImage_xorPixel hy hon s
  · next hoff => exact .of_blank (fun _ _ => by simp [bitImage, hoff]) s

theorem xorsImage_drawRow (hy : y < 32) (s : State) :
    XorsImage (rowImage b x0 y) s (drawRow b x0 y s) := by
  refine XorsImage.foldl (fun _ => xorsImage_drawBit hy) ?_ s
  exact List.pairwise_lt_range.imp_of_mem fun _ hbit' hlt =>
    bitImage_apart hlt (List.mem_range.1 hbit')

end Sys2Proof.Machine
end

section
/-! PROOFS, 44_display. DRW: the rows of the sprite, the instruction, and the instruction twice
(R171, R173, R176, R177). -/

namespace Sys2Proof.Machine

variable {s u : State} {x y n : Nibble}

/-! ## The rows -/

/-- The row of the given number of the sprite at I. -/
def State.spriteRow (s : State) (row : Nat) : Byte := s.byteAt (indexed s row)

@[simp] theorem spriteRow_drawRow (b : Byte) (x0 y : Nat) (s : State) :
    (drawRow b x0 y s).spriteRow = s.spriteRow := by
  rw [(drawRow_frame b x0 y s).1]
  rfl

/-- While the rows lie in memory, they are drawn one after the other: drawing changes no row. -/
theorem drawRows_of_le {x0 y0 count row : Nat} (h : indexed s (row + count) ≤ memSize) :
    drawRows x0 y0 count row s = .done ((List.range' row count).foldl
      (fun t r => drawRow (s.spriteRow r) x0 ((y0 + r) % 32) t) s) := by
  induction count generalizing row s with
  | zero => rfl
  | succ count ih =>
    simp only [drawRows, List.range'_succ, List.foldl_cons]
    rcases loadByte_cases (indexed s row)
      (fun b => drawRows x0 y0 count (row + 1) (drawRow b x0 ((y0 + row) % 32) s)) s with ⟨_, e⟩ | ⟨hle, _⟩
    · rw [e, ih, spriteRow_drawRow]
      · rfl
      · rw [(drawRow_frame _ _ _ _).1]
        simp only [indexed] at *
        omega
    · simp only [indexed] at *
      omega

/-- At most 32 rows wrap into different rows of the grid, so each is drawn apart from the others. -/
theorem xorsImage_drawRows {x0 y0 count : Nat} (h : indexed s count ≤ memSize) (hcount : count ≤ 32) :
    ∃ u, drawRows x0 y0 count 0 s = .done u ∧
      XorsImage (fun px py => (List.range count).any fun row =>
        rowImage (s.spriteRow row) x0 ((y0 + row) % 32) px py) s u := by
  refine ⟨_, drawRows_of_le (by rwa [Nat.zero_add]), ?_⟩
  rw [← List.range_eq_range']
  refine XorsImage.foldl (fun row t => xorsImage_drawRow (Nat.mod_lt _ (by decide)) t) ?_ s
  refine List.pairwise_lt_range.imp_of_mem fun {j k} _ hk hlt => rowImage_apart ?_
  have := List.mem_range.1 hk
  omega

/-! ## The sprite -/

theorem spriteCovers_eq_rows (s : State) (x y n : Nibble) :
    spriteCovers s x y n = fun px py => (List.range n.toNat).any fun row =>
      rowImage (s.spriteRow row) (s.getV x).toNat (((s.getV y).toNat + row) % 32) px py := rfl

/-- The sprite image is that of the coordinates, the rows at I and nothing else of the state. -/
theorem spriteCovers_congr (hi : u.i = s.i) (hmem : SameMem s u) (hx : u.getV x = s.getV x)
    (hy : u.getV y = s.getV y) : spriteCovers u x y n = spriteCovers s x y n := by
  have hrow : u.spriteRow = s.spriteRow := funext fun row => by
    simp only [State.spriteRow, indexed, hi, hmem _]
  rw [spriteCovers_eq_rows, spriteCovers_eq_rows, hrow, hx, hy]

/-- An on bit of the sprite lights a pixel of the grid. -/
theorem exists_spriteCovers {row bit : Nat} (hrow : row < n.toNat) (hbit : bit < 8)
    (hon : spriteBit (s.byteAt (indexed s row)) bit = true) :
    ∃ px py, px < 64 ∧ py < 32 ∧ spriteCovers s x y n px py = true :=
  ⟨((s.getV x).toNat + bit) % 64, ((s.getV y).toNat + row) % 32, Nat.mod_lt _ (by decide),
    Nat.mod_lt _ (by decide),
    List.any_eq_true.2 ⟨row, List.mem_range.2 hrow, rowImage_eq_true.2 ⟨bit, hbit, ⟨rfl, rfl⟩, hon⟩⟩⟩

/-! ## The instruction -/

/-- The rows of DRW, drawn with VF at 0, change FB and VF alone, whether they are all drawn or a read
faults. -/
theorem drawRows_setV_vf_frame (x0 y0 count : Nat) (s : State) :
    (drawRows x0 y0 count 0 (s.setV vf 0)).final =
      { s with v := (drawRows x0 y0 count 0 (s.setV vf 0)).final.v,
               fb := (drawRows x0 y0 count 0 (s.setV vf 0)).final.fb } ∧
    KeepsV [0xF] s (drawRows x0 y0 count 0 (s.setV vf 0)).final := by
  obtain ⟨hframe, hkeeps⟩ := drawRows_frame x0 y0 count 0 (s.setV vf 0)
  refine ⟨hframe, fun r hr => ?_⟩
  have hne : r ≠ vf := List.ne_of_not_mem_cons hr
  rw [hkeeps r hne, getV_setV_other s 0 hne]

/-- DRW with its sprite in memory: the sprite is XORed into FB with VF at 0, then Disp takes FB (R176). -/
theorem exec_drw_of_le (h : indexed s n.toNat ≤ memSize) :
    ∃ u, exec (.drw x y n) s = .next (displayUpdate u) ∧ u = { s with v := u.v, fb := u.fb } ∧
      KeepsV [0xF] s u ∧ XorsImage (spriteCovers s x y n) (s.setV vf 0) u := by
  obtain ⟨u, hu, hxors⟩ := xorsImage_drawRows (s := s.setV vf 0) (x0 := (s.getV x).toNat % 64)
    (y0 := (s.getV y).toNat % 32) h (Nat.le_of_lt (Nat.lt_trans n.isLt (by decide)))
  have hframe := drawRows_setV_vf_frame ((s.getV x).toNat % 64) ((s.getV y).toNat % 32) n.toNat s
  rw [hu] at hframe
  simp only [rowImage_mod, Nat.mod_add_mod] at hxors
  refine ⟨u, ?_, hframe.1, hframe.2, hxors⟩
  simp only [exec, execDrw, hu, Effect.done_andThen, Effect.outcome]

/-- DRW with its sprite past the top of memory: the fault of the first row outside, and no update of
Disp (R176; 60_exceptions R222). -/
theorem exec_drw_of_gt (h : memSize < indexed s n.toNat) :
    ∃ u, exec (.drw x y n) s = .next (raiseIn (.drw x y n) (.memOutOfRange memSize) u) ∧
      u = { s with v := u.v, fb := u.fb } := by
  obtain ⟨u, hu⟩ := drawRows_raised (s := s.setV vf 0) (x0 := (s.getV x).toNat % 64)
    (y0 := (s.getV y).toNat % 32) (n := n.toNat) (row := 0) (Nat.le_of_lt s.i.isLt) (by rwa [Nat.zero_add])
  have hframe := drawRows_setV_vf_frame ((s.getV x).toNat % 64) ((s.getV y).toNat % 32) n.toNat s
  rw [hu] at hframe
  refine ⟨u, ?_, hframe.1⟩
  simp only [exec, execDrw, hu, Effect.raised_andThen, Effect.outcome]

/-- Settles O56, by whether the sprite lies in memory. -/
theorem drwXorsSpriteImage : Obligations.DrwXorsSpriteImage := by
  intro x y n s
  refine ⟨decodeWord_encode (.drw x y n), fun hle => ?draws, fun hgt => ?faults⟩
  case draws =>
    obtain ⟨u, hu, hframe, hkeeps, hxors⟩ := exec_drw_of_le (x := x) (y := y) hle
    have hdisp : u.disp = s.disp := by rw [hframe]
    have hdirty : u.dirty = s.dirty := by rw [hframe]
    refine ⟨displayUpdate u, hu, hxors.pixel, hxors.collision, fun hno => ?vfZero, hkeeps, rfl,
      fun hne => ?dirtied, fun heq => ?clean, by rw [hframe]; rfl, fun a => by rw [hframe]; rfl⟩
    case vfZero => exact (hxors.noCollision hno).trans (getV_setV_same s vf 0)
    case dirtied =>
      have hne' : u.disp ≠ u.fb := hdisp ▸ hne
      simp [displayUpdate, hne']
    case clean =>
      have heq' : u.disp = u.fb := hdisp.trans heq
      simp [displayUpdate, heq', hdirty]
  case faults =>
    obtain ⟨u, hu, hframe⟩ := exec_drw_of_gt (x := x) (y := y) hgt
    refine ⟨_, hu, ?_, ?_⟩ <;> rw [hframe]
    · exact takesFault_raiseIn ..
    · rfl

/-- Settles O57: XORing the same image twice restores FB; the second draw meets an on pixel exactly where
the first turned it on. -/
theorem secondDrawRestoresFramebuffer : Obligations.SecondDrawRestoresFramebuffer := by
  intro x y n s hle
  obtain ⟨_, hfirst, _⟩ := drwXorsSpriteImage x y n s
  obtain ⟨t, ht, htfb, htvf, _⟩ := hfirst hle
  refine ⟨t, ht, fun u hufb hi hmem hx hy => ?_⟩
  obtain ⟨_, hsecond, _⟩ := drwXorsSpriteImage x y n u
  obtain ⟨w, hw, hwfb, hwvf, hwvf0, _⟩ := hsecond (by rwa [indexed, hi])
  rw [spriteCovers_congr hi hmem hx hy, hufb] at hwfb hwvf hwvf0
  have restored : w.fb = s.fb := Grid.ext fun px py hpx hpy => by
    rw [hwfb px py hpx hpy, htfb px py hpx hpy, Bool.xor_assoc, Bool.xor_self, Bool.xor_false]
  have turnedOn : ∀ px py, px < 64 → py < 32 → spriteCovers s x y n px py = true →
      (t.fb.get px py = true ↔ s.fb.get px py = false) := fun px py hpx hpy hcov => by
    rw [htfb px py hpx hpy, hcov, Bool.xor_true, Bool.not_eq_true']
  have collides : (∃ px py, px < 64 ∧ py < 32 ∧ s.fb.get px py = false ∧ spriteCovers s x y n px py = true) →
      w.getV 0xF = 1 := fun ⟨px, py, hpx, hpy, hoff, hcov⟩ =>
    hwvf ⟨px, py, hpx, hpy, (turnedOn px py hpx hpy hcov).2 hoff, hcov⟩
  refine ⟨w, hw, restored, collides, fun hno => hwvf0 ?noCollision, fun ⟨row, bit, hrow, hbit, hon⟩ hvf => ?sprite⟩
  case noCollision =>
    rintro ⟨px, py, hpx, hpy, hton, hcov⟩
    exact hno ⟨px, py, hpx, hpy, (turnedOn px py hpx hpy hcov).1 hton, hcov⟩
  case sprite =>
    obtain ⟨px, py, hpx, hpy, hcov⟩ := exists_spriteCovers (x := x) (y := y) hrow hbit hon
    refine collides ⟨px, py, hpx, hpy, ?_, hcov⟩
    by_contra hson
    have hcollided := htvf ⟨px, py, hpx, hpy, by simpa using hson, hcov⟩
    rw [hvf] at hcollided
    exact absurd hcollided (by decide)

end Sys2Proof.Machine
end

section
/-! PROOFS, 45_keys_timers. The key-down input: what a reading is, and what taking it does to the inputs
(60_exceptions R233). -/

namespace Sys2Proof.Machine

/-- The given reading comes first (log entry 7). -/
theorem nextKey_given {s : State} {b : Bool} {rest : List Bool} (k : Nibble) (h : s.inputs.keys = b :: rest) :
    s.nextKey k = b := by
  rw [State.nextKey, h, List.headD_cons]

/-- Taking a reading consumes the first given one, if any (log entry 7). -/
@[simp] theorem takeKey_keys (s : State) : s.takeKey.inputs.keys = s.inputs.keys.tail := rfl

@[simp] theorem takeKey_clock (s : State) : s.takeKey.inputs.clock = s.inputs.clock + 1 := rfl

@[simp] theorem takeKey_agenda (s : State) : s.takeKey.inputs.agenda = s.inputs.agenda := rfl

@[simp] theorem takeKey_bytes (s : State) : s.takeKey.inputs.bytes = s.inputs.bytes := rfl

/-- The frame of a taken reading: no simp lemma, since its right side holds its left. -/
theorem takeKey_changes_inputs_only (s : State) : s.takeKey = { s with inputs := s.takeKey.inputs } := rfl

end Sys2Proof.Machine
end

section
/-! PROOFS, 45_keys_timers. SKP and SKNP: the register as a key index, and one equation for each way they
end (R190, R191). -/

namespace Sys2Proof.Machine

variable {s : State} {x k : Nibble}

/-- A register that holds the number of a key names that key. -/
theorem keyIndex_of_toNat_eq {a : Byte} (h : a.toNat = k.toNat) : keyIndex a = some k := by
  have hk : k.toNat < 16 := k.isLt
  have hkey : a.setWidth 4 = k := BitVec.eq_of_toNat_eq (by rw [BitVec.toNat_setWidth]; omega)
  rw [keyIndex, if_pos (by omega), hkey]

theorem keyIndex_of_gt {a : Byte} (h : 15 < a.toNat) : keyIndex a = none :=
  if_neg (Nat.not_le.2 h)

theorem exec_skp_of_key (h : (s.getV x).toNat = k.toNat) :
    exec (.skp x) s = .next (skipIf (s.nextKey k) s.takeKey) := by
  simp only [exec, execSkp, keyIndex_of_toNat_eq h]

theorem exec_sknp_of_key (h : (s.getV x).toNat = k.toNat) :
    exec (.sknp x) s = .next (skipIf (!s.nextKey k) s.takeKey) := by
  simp only [exec, execSknp, keyIndex_of_toNat_eq h]

/-- The index is checked before the key is read. -/
theorem exec_skp_of_gt (h : 15 < (s.getV x).toNat) :
    exec (.skp x) s = .next (raiseIn (.skp x) (.keyOutOfRange (s.getV x)) s) := by
  simp only [exec, execSkp, keyIndex_of_gt h]

theorem exec_sknp_of_gt (h : 15 < (s.getV x).toNat) :
    exec (.sknp x) s = .next (raiseIn (.sknp x) (.keyOutOfRange (s.getV x)) s) := by
  simp only [exec, execSknp, keyIndex_of_gt h]

/-- Settles O58: by whether V[x] names a key, then by the reading for the skips and by whether readings
are given for what is taken. -/
theorem keySkipsReadTheInput : Obligations.KeySkipsReadTheInput := by
  refine fun x s => ⟨decodeWord_encode (.skp x), decodeWord_encode (.sknp x),
    fun k hk => ⟨fun hdown => ?down, fun hup => ?up, fun b rest hgiven => ⟨nextKey_given k hgiven, ?rest⟩,
      fun hfree => ⟨nextKey_free s k hfree, ?none⟩⟩,
    ⟨takeKey_changes_inputs_only s, takeKey_clock s, takeKey_agenda s, takeKey_bytes s⟩, fun hgt => ?faults⟩
  case down =>
    rw [exec_skp_of_key hk, exec_sknp_of_key hk, hdown, Bool.not_true, skipIf_true, skipIf_false, takeKey_pc]
    exact ⟨rfl, rfl⟩
  case up =>
    rw [exec_skp_of_key hk, exec_sknp_of_key hk, hup, Bool.not_false, skipIf_true, skipIf_false, takeKey_pc]
    exact ⟨rfl, rfl⟩
  case rest => rw [takeKey_keys, hgiven, List.tail_cons]
  case none => rw [takeKey_keys, hfree, List.tail_nil]
  case faults =>
    exact ⟨⟨_, exec_skp_of_gt hgt, takesFault_raiseIn .., rfl⟩, ⟨_, exec_sknp_of_gt hgt, takesFault_raiseIn .., rfl⟩⟩

end Sys2Proof.Machine
end

section
/-! PROOFS, 45_keys_timers. The timer transfers (R192, R194, R195) and the wait for a key (R193). -/

namespace Sys2Proof.Machine

variable {s : State} {k : Nibble}

/-- Settles O59: the one write of V[x], and the one write of either counter. -/
theorem timerTransfersCopyCounters : Obligations.TimerTransfersCopyCounters := fun x s =>
  ⟨decodeWord_encode (.ldVxDt x), decodeWord_encode (.ldDtVx x), decodeWord_encode (.ldStVx x),
    ⟨s.setV x s.dt, rfl, getV_setV_same s x s.dt, writesOnlyV_setV x s.dt s⟩, rfl, rfl⟩

theorem exec_ldVxK_of_key (x : Nibble) (h : s.pressed = some k) :
    exec (.ldVxK x) s = .next (s.setV x (keyByte k)) := by
  simp only [exec, execLdVxK, h]

theorem exec_ldVxK_of_no_key (x : Nibble) (h : s.pressed = none) :
    exec (.ldVxK x) s = .next (s.setMode (.awaitKey x)) := by
  simp only [exec, execLdVxK, h]

/-- Settles O60, by whether a key is recorded: the one write of V[x], or of the mode. -/
theorem ldVxKTakesKeyOrWaits : Obligations.LdVxKTakesKeyOrWaits := fun x s =>
  ⟨decodeWord_encode (.ldVxK x), fun k hk => ⟨_, exec_ldVxK_of_key x hk, by rw [getV_setV_same, keyByte_toNat],
    writesOnlyV_setV x (keyByte k) s⟩, exec_ldVxK_of_no_key x⟩

end Sys2Proof.Machine
end

section
/-! PROOFS, 60_exceptions. Fault entry (R221, R222): where a step that enters Faulted takes the record from. -/

namespace Sys2Proof.Machine

variable {s t u : State} {i : Instr}

/-- What fault entry on a step from s leaves in t, with r the record (R221, R222). -/
structure FaultEntry (s : State) (r : FaultRecord) (t : State) : Prop where
  fault : t.fault = some r
  running : t.running = false
  out : t.out = s.out

/-- The instruction that a fault record of a step from s may name (R221; log entry 15 for the poll). -/
inductive FaultSource (s : State) : FaultRecord → Prop where
  | fetchFault (hmode : s.mode = .run) (f : Fault) (hf : fetch s = .error f) :
      FaultSource s { fault := f, addr := s.pc, op := none }
  | fetched (hmode : s.mode = .run) (f : Fault) (op : Word) (hf : fetch s = .ok op) :
      FaultSource s { fault := f, addr := s.pc, op := some op }
  | poll (x : Nibble) (hmode : s.mode = .awaitKey x) (f : Fault) :
      FaultSource s { fault := f, addr := s.pc - 2, op := some (encode (.ldVxK x)) }

/-- Fault entry itself, in a state that has published nothing since s. -/
theorem faultEntry_takeFault (f : Fault) (a : Word) (o : Option Word) (hout : u.out = s.out) :
    FaultEntry s { fault := f, addr := a, op := o } (takeFault f a o u) :=
  ⟨rfl, rfl, hout⟩

/-- `finish()` enters Faulted by the post-execute validation alone (40_cycle R96). -/
theorem finish_faultEntry (a op : Word) (hm : u.mode ≠ .faulted) (hout : u.out = s.out)
    (hf : (finish a op u).mode = .faulted) :
    ∃ f, FaultEntry s { fault := f, addr := a, op := some op } (finish a op u) := by
  rcases finish_cases a op u with ⟨r, _, e⟩ | ⟨_, e⟩ <;> rw [e] at hf ⊢
  · exact ⟨_, faultEntry_takeFault _ _ _ hout⟩
  · exact absurd hf hm

/-- A cycle that executes i at s.pc enters Faulted where i raises a fault or the validation after it fails. -/
theorem endCycle_faultEntry (hm : s.mode = .run) (he : exec i (advance s.takeTurn) = .next u)
    (hf : (endCycle s.pc (encode i) u).mode = .faulted) :
    ∃ f, FaultEntry s { fault := f, addr := s.pc, op := some (encode i) } (endCycle s.pc (encode i) u) := by
  have hx := exec_control he
  rcases hx.ends with ⟨em, _, _⟩ | ⟨x, _, rfl⟩ | ⟨f, ef, em, er, _⟩
  · have hrun : u.mode = .run := em.trans hm
    rw [endCycle_of_run _ _ hrun] at hf ⊢
    exact finish_faultEntry _ _ (by simp [hrun]) hx.out hf
  · rw [endCycle_of_awaitKey (x := x) _ _ rfl] at hf
    cases hf
  · rw [endCycle_of_faulted _ _ em]
    have hpc : (advance s.takeTurn).pc - 2 = s.pc := BitVec.add_sub_cancel s.pc 2
    exact ⟨f, by rw [ef, hpc], er, hx.out⟩

/-- A cycle into Faulted records the word it fetched, or the fault of the fetch. -/
theorem AtCycle.faultEntry (hc : AtCycle s) (h : step s = .next t) (hf : t.mode = .faulted) :
    ∃ r, FaultEntry s r t ∧ FaultSource s r := by
  rw [hc.step_eq] at h
  rcases runCycle_cases s.takeTurn with ⟨f, hw, e⟩ | ⟨op, r, hw, _, e⟩ | ⟨op, w, hw, _, _, e⟩ |
    ⟨op, i, u, hw, _, hd, he, e⟩ <;> rw [e] at h <;> cases h
  · exact ⟨_, faultEntry_takeFault _ _ _ rfl, .fetchFault hc.mode_run f hw⟩
  · exact ⟨_, faultEntry_takeFault _ _ _ rfl, .fetched hc.mode_run _ op hw⟩
  · exact ⟨_, faultEntry_takeFault _ _ _ rfl, .fetched hc.mode_run _ op hw⟩
  · obtain rfl := encode_of_decodeWord hd
    obtain ⟨f, hentry⟩ := endCycle_faultEntry hc.mode_run he hf
    exact ⟨_, hentry, .fetched hc.mode_run f _ hw⟩

/-- A poll into Faulted records the Fx0A that waits, two below PC (log entry 15). -/
theorem poll_faultEntry {x : Nibble} (hm : s.mode = .awaitKey x) (hf : (poll x s.takeTurn).mode = .faulted) :
    ∃ r, FaultEntry s r (poll x s.takeTurn) ∧ FaultSource s r := by
  cases hp : s.pressed with
  | none =>
    rw [poll_of_no_key (s := s.takeTurn) x hp] at hf
    exact absurd (hm.symm.trans hf) (by simp)
  | some k =>
    rw [poll_of_key (s := s.takeTurn) x hp] at hf ⊢
    obtain ⟨f, hentry⟩ := finish_faultEntry (s := s) (u := takeRecordedKey x k s.takeTurn) _ _
      (by simp [takeRecordedKey]) rfl hf
    exact ⟨_, hentry, .poll x hm f⟩

@[simp] theorem tick_mode (s : State) : (tick s).mode = s.mode := by
  unfold tick
  split <;> rfl

/-- No host action enters Faulted (R234). -/
theorem hostStep_mode_ne_faulted {a : HostAction} (h : hostStep a s = .next t) (hm : s.mode ≠ .faulted) :
    t.mode ≠ .faulted := by
  rcases hostStep_cases h with rfl | ⟨_, _, _, _, rfl⟩ | ⟨_, _, _, _, rfl⟩ | ⟨_, _, rfl⟩ | ⟨_, rfl⟩ |
    ⟨_, _, _, rfl⟩
  case inr.inr.inr.inl => simp
  all_goals exact hm

/-- Only a cycle or a poll enters Faulted. -/
theorem step_faultEntry (hm : s.mode ≠ .faulted) (h : step s = .next t) (hf : t.mode = .faulted) :
    ∃ r, FaultEntry s r t ∧ FaultSource s r := by
  rcases step_cases s with ⟨hturn, e⟩ | ⟨_, e⟩ | ⟨a, _, e⟩
  · rw [e] at h
    rcases coreStep_cases s.takeTurn with ⟨_, e'⟩ | ⟨_, _, e'⟩ | ⟨hr, hrun, _⟩ | ⟨x, _, hkey, e'⟩
    · cases e'.symm.trans h; exact absurd hf hm
    · cases e'.symm.trans h; cases hf
    · exact AtCycle.faultEntry ⟨hturn, hrun, hr⟩ (e.trans h) hf
    · cases e'.symm.trans h; exact poll_faultEntry hkey hf
  · cases e.symm.trans h
    exact absurd ((tick_mode _).symm.trans hf) hm
  · exact absurd hf (hostStep_mode_ne_faulted (s := s.takeTurn) (e.symm.trans h) hm)

/-- Settles O16, by the three sources of a fault record, each of one mode and one answer of the fetch. -/
theorem faultEntryRecordsInstruction : Obligations.FaultEntryRecordsInstruction := by
  intro s t hm h hf
  obtain ⟨r, hentry, hsource⟩ := step_faultEntry hm h hf
  refine ⟨hentry.running, hentry.out, r, hentry.fault, ?_⟩
  cases hsource with
  | fetchFault hmode f hw => simp [hmode, hw]
  | fetched hmode f op hw => simp [hmode, hw]
  | poll x hmode f => simp [hmode]

end Sys2Proof.Machine
end

section
/-! PROOFS, 60_exceptions. The word of no row (R216, R224), and the fault table (R211). -/

namespace Sys2Proof.Machine

variable {s : State} {op : Word}

/-- The decoder's fault comes after the pre-execute validation and before any effect (R216). -/
theorem AtCycle.step_unimplemented (hc : AtCycle s) (hf : fetch s = .ok op)
    (hv : strictFailure (advance s.takeTurn) = none) (hd : decodeWord op = .unimplemented op) :
    step s = .next (takeFault (.unimplementedOpcode op) s.pc (some op) (advance s.takeTurn)) := by
  have hf' : fetch s.takeTurn = .ok op := hf
  simp only [hc.step_eq, runCycle, hf', hv, executeWord, hd, takeTurn_pc]

/-- Settles O8: such a word decodes to no instruction, and the pre-execute validation decides first. -/
theorem unimplementedWordFaults : Obligations.UnimplementedWordFaults := by
  intro s op hc hf hno
  have hd : decodeWord op = .unimplemented op := (decoderFollowsOpcodeMap op).2.2 hno
  exact ⟨fun hv => hc.step_unimplemented hf hv hd, fun r hv => hc.step_invalid hf hv⟩

/-- The codes and names of R211. -/
def faultTable : List (Nat × String) :=
  [(1, "MemOutOfRange"), (2, "StackOverflow"), (3, "StackUnderflow"), (4, "InvalidAddress"),
   (5, "UnimplementedOpcode"), (6, "KeyOutOfRange"), (7, "InvalidState"), (8, "IndexOutOfRange")]

theorem code_name_mem_faultTable (f : Fault) : (f.code, f.name) ∈ faultTable := by
  cases f <;> simp [faultTable, Fault.code, Fault.name]

/-- Two rows of the table agree in the code exactly if they agree in the name. -/
theorem faultTable_code_eq_iff_name_eq :
    ∀ row ∈ faultTable, ∀ row' ∈ faultTable, row.1 = row'.1 ↔ row.2 = row'.2 := by
  decide

/-- Settles O17: each fault's row, and that the table's rows have codes and names of their own. -/
theorem faultCodesAndNamesFollowTheTable : Obligations.FaultCodesAndNamesFollowTheTable := by
  refine ⟨fun _ => ⟨rfl, rfl⟩, fun _ => ⟨rfl, rfl⟩, ⟨rfl, rfl⟩, fun _ => ⟨rfl, rfl⟩, fun _ => ⟨rfl, rfl⟩,
    fun _ => ⟨rfl, rfl⟩, fun _ => ⟨rfl, rfl⟩, fun _ => ⟨rfl, rfl⟩, fun f g => ?_⟩
  exact faultTable_code_eq_iff_name_eq _ (code_name_mem_faultTable f) _ (code_name_mem_faultTable g)

end Sys2Proof.Machine
end

section
/-! PROOFS, 60_exceptions. The timer tick, once and many times (R227). -/

namespace Sys2Proof.Machine

variable {s : State}

@[simp] theorem countDown_toNat (c : Byte) : (countDown c).toNat = c.toNat - 1 := by
  unfold countDown
  split <;> bv_omega

theorem tick_of_running (hr : s.running = true) :
    tick s = { s with dt := countDown s.dt, st := countDown s.st } :=
  if_pos hr

@[simp] theorem tick_running (s : State) : (tick s).running = s.running := by
  unfold tick
  split <;> rfl

/-- Settles O26, by whether the machine is running. -/
theorem tickCountsBothDown : Obligations.TickCountsBothDown := by
  refine fun s hturn => ⟨fun hr => ?_, fun hr t h => ?_⟩
  · have hstep := step_of_tick_turn hturn
    rw [tick_of_running (s := s.takeTurn) hr] at hstep
    exact ⟨_, hstep, countDown_toNat s.dt, countDown_toNat s.st, rfl, fun _ => rfl⟩
  · rw [step_of_tick_turn hturn, tick_of_not_running (s := s.takeTurn) hr] at h
    cases h
    exact ⟨rfl, rfl⟩

theorem iterate_countDown_toNat (n : Nat) (c : Byte) : (countDown^[n] c).toNat = c.toNat - n := by
  induction n with
  | zero => rfl
  | succ n ih => rw [Function.iterate_succ_apply', countDown_toNat, ih, Nat.sub_sub]

/-- Many ticks count each counter down on its own: a tick keeps `running`. -/
theorem iterate_tick (n : Nat) (hr : s.running = true) :
    tick^[n] s = { s with dt := countDown^[n] s.dt, st := countDown^[n] s.st } := by
  induction n generalizing s with
  | zero => rfl
  | succ n ih =>
    rw [Function.iterate_succ_apply, ih ((tick_running s).trans hr), tick_of_running hr]
    rfl

/-- Settles O27: n ticks are n counts of each counter, and nothing else. -/
theorem manyTicksRunTheCountersDown : Obligations.ManyTicksRunTheCountersDown := by
  intro n s hr
  rw [iterate_tick n hr]
  exact ⟨iterate_countDown_toNat n s.dt, iterate_countDown_toNat n s.st, rfl⟩

end Sys2Proof.Machine
end

section
/-! PROOFS, 60_exceptions. The host's start, stop, signalPress and read (R229, R232, R234). -/

namespace Sys2Proof.Machine

variable {s : State} {k : Nat}

theorem step_of_host_turn {a : HostAction} (h : s.nextTurn = .host a) : step s = hostStep a s.takeTurn := by
  simp only [step, turnStep, h]

theorem hostSignal_of_lt (h : k < 16) (s : State) : hostSignal k s = .next (toggleKey (BitVec.ofNat 4 k) s) :=
  if_pos h

theorem hostSignal_of_le (h : 16 ≤ k) (s : State) : hostSignal k s = .refused (.hostKeyOutOfRange k) :=
  if_neg (Nat.not_lt.2 h)

theorem toggleKey_pressed_of_key (key : Nibble) (h : s.pressed ≠ none) : (toggleKey key s).pressed = none := by
  obtain ⟨old, hold⟩ := Option.ne_none_iff_exists'.1 h
  simp only [toggleKey, hold]

theorem toggleKey_pressed_of_no_key (key : Nibble) (h : s.pressed = none) :
    (toggleKey key s).pressed = some key := by
  simp only [toggleKey, h]

/-- Settles O30, by the bound of the key index, then by whether a key is recorded. -/
theorem signalPressToggles : Obligations.SignalPressToggles := by
  intro s k hturn
  have hstep : step s = hostSignal k s.takeTurn := step_of_host_turn hturn
  refine ⟨fun hk => ⟨_, hstep.trans (hostSignal_of_lt hk _), rfl, ?some, ?none⟩,
    fun hk => hstep.trans (hostSignal_of_le hk _)⟩
  case some => exact toggleKey_pressed_of_key (s := s.takeTurn) _
  case none =>
    have hkey : (BitVec.ofNat 4 k).toNat = k := Nat.mod_eq_of_lt hk
    exact fun hp => ⟨BitVec.ofNat 4 k, hkey, toggleKey_pressed_of_no_key (s := s.takeTurn) _ hp⟩

theorem hostStart_of_idle (hm : s.mode = .idle) : hostStart s = .next { s with running := true, mode := .run } :=
  if_pos hm

theorem hostStart_of_running (hm : s.mode ≠ .idle) (hr : s.running = true) : hostStart s = .next s :=
  (if_neg hm).trans (if_pos hr)

theorem hostStart_of_not_running (hm : s.mode ≠ .idle) (hr : s.running = false) :
    hostStart s = .refused .hostNotIdle :=
  (if_neg hm).trans (if_neg (by simp [hr]))

/-- Settles O31: the start by mode and `running`; a stop and a read have one case each. -/
theorem hostStartsStopsAndReads : Obligations.HostStartsStopsAndReads := fun s =>
  ⟨fun hturn hm => (step_of_host_turn hturn).trans (hostStart_of_idle (s := s.takeTurn) hm),
    fun hturn hm hr => (step_of_host_turn hturn).trans (hostStart_of_running (s := s.takeTurn) hm hr),
    fun hturn hm hr => (step_of_host_turn hturn).trans (hostStart_of_not_running (s := s.takeTurn) hm hr),
    step_of_host_turn, step_of_host_turn⟩

end Sys2Proof.Machine
end

section
/-! PROOFS, 70_reset. The host's loads: when a load is well formed, how it ends, and what the font and the
ROM leave in memory (R252 to R254). -/

namespace Sys2Proof.Machine

variable {s : State} {a : HostAction} {effect : State → State} {bytes : List Byte}

/-- The font has one length (R252). -/
theorem wellFormed_loadFont_iff : (HostAction.loadFont bytes).wellFormed = true ↔ bytes.length = 80 :=
  beq_iff_eq

/-- The ROM fits between its base and the top of memory (R253). -/
theorem wellFormed_loadRom_iff : (HostAction.loadRom bytes).wellFormed = true ↔ bytes.length ≤ 3584 :=
  decide_eq_true_iff

theorem loadErrorReported_loadFont (bytes : List Byte) :
    loadErrorReported (.loadFont bytes) = !(HostAction.loadFont bytes).wellFormed := rfl

theorem loadErrorReported_loadRom (bytes : List Byte) :
    loadErrorReported (.loadRom bytes) = !(HostAction.loadRom bytes).wellFormed := rfl

theorem hostLoad_of_wellFormed (hm : s.mode = .idle) (hw : a.wellFormed = true) :
    hostLoad a effect s = .next (effect s) := by
  rw [hostLoad, if_pos hm, if_pos hw]

theorem hostLoad_of_not_wellFormed (hm : s.mode = .idle) (hw : ¬ a.wellFormed = true) :
    hostLoad a effect s = .next s := by
  rw [hostLoad, if_pos hm, if_neg hw]

theorem hostLoad_of_not_idle (hm : s.mode ≠ .idle) : hostLoad a effect s = .refused .hostNotIdle :=
  if_neg hm

/-- Bytes written in a row read back, as the places of the list. -/
theorem getElem?_eq_read_writeList {m : Mem} {base k : Nat} (hwf : m.wf = true)
    (hfit : base + bytes.length ≤ memSize) (hk : k < bytes.length) :
    bytes[k]? = some ((m.writeList base bytes).read (base + k)) := by
  rw [Mem.read_writeList_get hwf hfit hk, List.getElem?_eq_getElem hk]

/-- Settles O28: by the mode, then by the length; the 80 bytes are written in a row from 0. -/
theorem loadFontFillsFirstEightyCells : Obligations.LoadFontFillsFirstEightyCells := by
  intro s bytes hturn
  have hstep : step s = hostLoad (.loadFont bytes) (loadFontBytes bytes) s.takeTurn := step_of_host_turn hturn
  refine ⟨fun hm hlen hinv => ?fills, fun hm hlen => ?loadError, fun hm => hstep.trans (hostLoad_of_not_idle hm)⟩
  case fills =>
    have hw := wellFormed_loadFont_iff.2 hlen
    have hfit : 0 + bytes.length ≤ memSize := by rw [hlen]; decide
    refine ⟨by rw [loadErrorReported_loadFont, hw, Bool.not_true], _,
      hstep.trans (hostLoad_of_wellFormed hm hw), fun k hk => ?_, fun a ha => ?_, rfl⟩
    · have hread := getElem?_eq_read_writeList hinv hfit (hlen ▸ hk)
      rwa [Nat.zero_add] at hread
    · exact Mem.read_writeList_other (.inr (by omega))
  case loadError =>
    have hw := mt wellFormed_loadFont_iff.1 hlen
    exact ⟨by rw [loadErrorReported_loadFont, Bool.eq_false_of_not_eq_true hw, Bool.not_false],
      hstep.trans (hostLoad_of_not_wellFormed hm hw)⟩

/-- Settles O29: by the mode, then by the length; the ROM's bytes are written in a row from 0x200. -/
theorem loadRomFillsFromEntryPoint : Obligations.LoadRomFillsFromEntryPoint := by
  intro s bytes hturn
  have hstep : step s = hostLoad (.loadRom bytes) (loadRomBytes bytes) s.takeTurn := step_of_host_turn hturn
  refine ⟨fun hm hlen hinv => ?fills, fun hm hlen => ?loadError, fun hm => hstep.trans (hostLoad_of_not_idle hm)⟩
  case fills =>
    have hw := wellFormed_loadRom_iff.2 hlen
    have hfit : 0x200 + bytes.length ≤ memSize := Nat.add_le_add_left hlen 0x200
    exact ⟨by rw [loadErrorReported_loadRom, hw, Bool.not_true], _,
      hstep.trans (hostLoad_of_wellFormed hm hw), fun k hk => getElem?_eq_read_writeList hinv hfit hk,
      fun a ha => Mem.read_writeList_other ha, rfl⟩
  case loadError =>
    have hw := mt wellFormed_loadRom_iff.1 (Nat.not_le.2 hlen)
    exact ⟨by rw [loadErrorReported_loadRom, Bool.eq_false_of_not_eq_true hw, Bool.not_false],
      hstep.trans (hostLoad_of_not_wellFormed hm hw)⟩

end Sys2Proof.Machine
end

section
/-! PROOFS, 70_reset. The boot: the two loads and the start, one after the other (R251). -/

namespace Sys2Proof.Machine

/-- A run goes on from the state its first step answers. -/
theorem run_succ_of_next {M : Host.Core} {s t : M.State} (k : Nat) (h : M.step s = .next t) :
    M.run (k + 1) s = M.run k t := by
  rw [Host.Core.run, h]

/-- The boot of any machine in mode Idle: each action's own law gives its step, the frames carry mode, PC,
stack and the turns still to come, and the font lies below the ROM. -/
theorem boot_of_idle {s : State} {params : Params} {rom : List Byte} (hm : s.mode = .idle) (hinv : MemInv s)
    (hturns : s.inputs.agenda = (bootSequence params rom).map .host) (hrom : rom.length ≤ 3584) :
    ∃ t, Host.Core.run Sys2Proof.core 3 s = .next t ∧
      t.mode = .run ∧ t.running = true ∧ t.pc = s.pc ∧ t.stack = s.stack ∧
      (∀ k (h : k < 80), t.byteAt k = params.font[k]) ∧
      (∀ k, k < rom.length → rom[k]? = some (t.byteAt (0x200 + k))) := by
  obtain ⟨_, t₁, hstep₁, hfont, _, hframe₁⟩ :=
    (loadFontFillsFirstEightyCells s _ (nextTurn_given s _ _ hturns)).1 hm params.font.length_toList hinv
  have hturns₁ : t₁.inputs.agenda = [.host (.loadRom rom), .host .start] := by
    rw [hframe₁, takeTurn_agenda, hturns]; rfl
  obtain ⟨_, t₂, hstep₂, hromCells, hothers, hframe₂⟩ :=
    (loadRomFillsFromEntryPoint t₁ rom (nextTurn_given t₁ _ _ hturns₁)).1 (by rw [hframe₁]; exact hm) hrom
      (stepKeepsMemoryCanonical s t₁ hinv hstep₁)
  have hturns₂ : t₂.inputs.agenda = [.host .start] := by
    rw [hframe₂, takeTurn_agenda, hturns₁]; rfl
  have hstep₃ := (hostStartsStopsAndReads t₂).1 (nextTurn_given t₂ _ _ hturns₂)
    (by rw [hframe₂, hframe₁]; exact hm)
  refine ⟨{ t₂.takeTurn with running := true, mode := .run }, ?run, rfl, rfl, ?pc, ?stack, fun k hk => ?font,
    hromCells⟩
  case run =>
    calc Host.Core.run Sys2Proof.core 3 s
      _ = Host.Core.run Sys2Proof.core 2 t₁ := run_succ_of_next 2 hstep₁
      _ = Host.Core.run Sys2Proof.core 1 t₂ := run_succ_of_next 1 hstep₂
      _ = .next _ := run_succ_of_next 0 hstep₃
  case pc => rw [hframe₂, hframe₁]; rfl
  case stack => rw [hframe₂, hframe₁]; rfl
  case font =>
    have hcell : some params.font[k] = some (t₁.byteAt k) := by simpa [hk] using hfont k hk
    calc t₂.byteAt k = t₁.byteAt k := hothers k (.inl (by omega))
      _ = params.font[k] := (Option.some.inj hcell).symm

/-- Settles O32: a built machine is in mode Idle with PC at 0x200 and the stack empty (R44). -/
theorem bootLoadsAndStarts : Obligations.BootLoadsAndStarts := fun _ _ _ hwf hrom =>
  boot_of_idle rfl hwf rfl hrom

end Sys2Proof.Machine
end
